-- ==== Sys2Proof/Word.lean ====
section
/-! DEFINITION. The widths the spec names: bytes of a burst, 16-bit fields of a sample, 32-bit registers, slot indices. -/

namespace Sys2Proof

/-- One byte of a burst or of a call's operands (00_scope R6: each byte is in 0..255). -/
abbrev Byte := BitVec 8

/-- A 16-bit field of a sample (10_state R11, 30_encoding R46). -/
abbrev Half := BitVec 16

/-- A 32-bit register, `length`, or a SAMPLE word (10_state R14 to R18, 30_encoding R46). -/
abbrev Word := BitVec 32

/-- A cursor: a slot index in 0..31, 5 bits (10_state R12, R13). Its arithmetic wraps `mod N`. -/
abbrev SlotIx := BitVec 5

end Sys2Proof
end

