-- ==== Sys2Proof/Syntax.lean ====
section
/-! DEFINITION. The instructions: one constructor per row of spec/opcode_table.json. -/

namespace Sys2Proof

/-- A Tone Sample, the content of one slot: a frequency in Hz (0 means silence) and a duration in milliseconds
(10_state R11, 20_memory R31). -/
structure Sample where
  freq : Half
  dur : Half
  deriving DecidableEq, Repr, Inhabited

/-- The operations of the block (format OP, 30_encoding R51) and the two classes of samples the scheduler executes
(format SAMPLE, 30_encoding R48). -/
inductive Instr where
  /-- Host initialisation (70_reset_and_hazards R120). -/
  | reset
  /-- `free_capacity()` (40_tone_queue R61). -/
  | freecap
  /-- `enqueue_bytes(buffer, length)` (40_tone_queue R62). -/
  | enq (length : Word) (buffer : List Byte)
  /-- The 1 kHz tick (41_playback_scheduler R70). -/
  | tick
  /-- `play_startup_sequence(revision_byte)` (43_startup_sequencer R91). -/
  | startup (rev : Byte)
  /-- One firing of the periodic interrupt and its handler (42_square_wave_generator R85). -/
  | fire
  /-- `dequeue_one()` (40_tone_queue R63). -/
  | deq
  /-- `configure(frequency)` (42_square_wave_generator R80, R81). -/
  | cfg (f : Half)
  /-- Deactivate the generator (42_square_wave_generator R82). -/
  | genoff
  /-- A sample of frequency 0 (30_encoding R48). -/
  | rest (dur : Half)
  /-- A sample of a frequency that is not 0 (30_encoding R48). -/
  | note (freq dur : Half)
  deriving DecidableEq, Repr

/-- The two encodings of instructions (30_encoding R45): a call of an operation, and a sample word. -/
inductive Format where
  | op
  | sample
  deriving DecidableEq, Repr

/-- The format an instruction is encoded in (column `format` of spec/opcode_table.json). -/
def Instr.format : Instr → Format
  | .reset => .op
  | .freecap => .op
  | .enq _ _ => .op
  | .tick => .op
  | .startup _ => .op
  | .fire => .op
  | .deq => .op
  | .cfg _ => .op
  | .genoff => .op
  | .rest _ => .sample
  | .note _ _ => .sample

end Sys2Proof
end

