-- ==== Sys2Proof/Config.lean ====
section
/-! DEFINITION. What an implementation fixes (00_scope R4), and the free values: constants without a body. -/

namespace Sys2Proof

/-- `N`: the number of slots of the sample buffer (00_scope R4). -/
abbrev Config.slots : Nat := 32

/-- `SAMPLE_BYTES`: the encoded width of one sample (00_scope R4). -/
abbrev Config.sampleBytes : Nat := 4

/-- `GAP_TICKS`: the gap constant of the scheduler (00_scope R4). -/
abbrev Config.gapTicks : Word := 5#32

/-- `FREQ_MAX`: the clamp ceiling in Hz (00_scope R4). -/
abbrev Config.freqMax : Nat := 10000

/-- `TIMEBASE_HZ`: the rate of the generator's timing base (00_scope R4). -/
abbrev Config.timebaseHz : Nat := 1000000

/-- `TICK_HZ`: the nominal rate of `TICK` (00_scope R4). Only the timed refinement reads it (42 R88). -/
abbrev Config.tickHz : Nat := 1000

/-- `NOTE_MS`: the duration of a startup tone (00_scope R4). -/
abbrev Config.noteMs : Half := 150#16

/-- `REST_MS`: the duration of a startup silence (00_scope R4). -/
abbrev Config.restMs : Half := 15#16

/-- `STARTUP_FREQ[0..3]`: the four startup frequencies, index 0 for the field played first (43_startup_sequencer R95).
The spec gives no values and forbids assuming any: a FREE VALUE (assumption 6, DESIGN CHOICE, safe). -/
opaque Config.startupFreq : Fin 4 → Half

/-- What slot `i` holds while nothing has written it: unspecified, any value (10_state R24, 93 U5). A FREE VALUE
(assumption 5, DESIGN CHOICE, safe). -/
opaque Config.unspecifiedSlot : Nat → Sample

end Sys2Proof
end

