-- ==== Sys2Proof/WellFormed.lean ====
section
/-! DEFINITION. Which instructions are well formed: what an encoding can say. -/

namespace Sys2Proof

/-- An `ENQ` carries a buffer of exactly `length` bytes (30_encoding R49, 40_tone_queue R62), and a `NOTE` is a sample
whose frequency is not 0 (30_encoding R48); every other instruction is well formed. -/
def Instr.wellFormed : Instr → Bool
  | .reset => true
  | .freecap => true
  | .enq length buffer => buffer.length == length.toNat
  | .tick => true
  | .startup _ => true
  | .fire => true
  | .deq => true
  | .cfg _ => true
  | .genoff => true
  | .rest _ => true
  | .note freq _ => freq != 0#16

end Sys2Proof
end

