-- ==== Sys2Proof/Decode.lean ====
section
/-! DEFINITION. From bytes to instructions and back (30_encoding). Decoding is total and rejects by name. -/

namespace Sys2Proof

/-! ### Byte order (20_memory R32: little-endian; assumption 20) -/

/-- A 16-bit field from its two bytes in buffer order: `lo + 256 * hi` (30_encoding R46). -/
def halfOfBytes (lo hi : Byte) : Half := hi ++ lo

/-- The two bytes of a 16-bit field in buffer order (30_encoding R47). -/
def bytesOfHalf (h : Half) : List Byte := [h.extractLsb' 0 8, h.extractLsb' 8 8]

/-- A 32-bit number from four bytes, the least significant first (30_encoding R46). -/
def wordOfBytes (b0 b1 b2 b3 : Byte) : Word := halfOfBytes b2 b3 ++ halfOfBytes b0 b1

/-- The four bytes of a 32-bit number, the least significant first. -/
def bytesOfWord (w : Word) : List Byte :=
  [w.extractLsb' 0 8, w.extractLsb' 8 8, w.extractLsb' 16 8, w.extractLsb' 24 8]

/-! ### The SAMPLE format -/

/-- `decode(b0, b1, b2, b3)`: the frequency field first, the duration field second (30_encoding R46). -/
def sampleOfBytes (b0 b1 b2 b3 : Byte) : Sample := ⟨halfOfBytes b0 b1, halfOfBytes b2 b3⟩

/-- `encode(freq, dur)` (30_encoding R47). -/
def bytesOfSample (s : Sample) : List Byte := bytesOfHalf s.freq ++ bytesOfHalf s.dur

/-- The class of a sample, from its frequency alone: `REST` is tried first (30_encoding R48). -/
def sampleInstr (s : Sample) : Instr :=
  if s.freq = 0#16 then .rest s.dur else .note s.freq s.dur

/-! ### The OP format -/

/-- Why bytes are no instruction. -/
inductive Reject where
  /-- A call of no bytes: it has no selector. -/
  | emptyCall
  /-- Selector codes 0x6, 0x7, 0xB to 0xF name no operation (30_encoding R54). -/
  | reservedSelector (op : BitVec 4)
  /-- Fewer operand bytes than the operation has; for `ENQ`, a buffer shorter than `length` (93 U19). -/
  | operandsMissing
  /-- More bytes than the operation has (30_encoding R49: the buffer holds exactly `length` bytes). -/
  | operandsLeftOver
  /-- A SAMPLE word is exactly four bytes (30_encoding R45). -/
  | notFourBytes
  deriving DecidableEq, Repr

/-- `op[3:0]`, the selector: the low four bits of a call's first byte. The table's mask for every operation is 0xF, so
the byte's high four bits are not read (assumption 3, DESIGN CHOICE). -/
def selector (b : Byte) : BitVec 4 := b.extractLsb' 0 4

/-- An operation without operands. -/
def decodeNullary (i : Instr) : List Byte → Except Reject Instr
  | [] => .ok i
  | _ :: _ => .error .operandsLeftOver

/-- `ENQ`'s operands: `length`, 32 bits, then exactly `length` bytes (assumption 3 for their place). -/
def decodeEnq : List Byte → Except Reject Instr
  | l0 :: l1 :: l2 :: l3 :: buffer =>
    if buffer.length < (wordOfBytes l0 l1 l2 l3).toNat then .error .operandsMissing
    else if (wordOfBytes l0 l1 l2 l3).toNat < buffer.length then .error .operandsLeftOver
    else .ok (.enq (wordOfBytes l0 l1 l2 l3) buffer)
  | _ => .error .operandsMissing

/-- `STARTUP`'s operand: the revision byte. -/
def decodeStartup : List Byte → Except Reject Instr
  | [rev] => .ok (.startup rev)
  | [] => .error .operandsMissing
  | _ => .error .operandsLeftOver

/-- `CFG`'s operand: the frequency, 16 bits. -/
def decodeCfg : List Byte → Except Reject Instr
  | [lo, hi] => .ok (.cfg (halfOfBytes lo hi))
  | _ :: _ :: _ :: _ => .error .operandsLeftOver
  | _ => .error .operandsMissing

/-- The selector codes of 30_encoding R51. -/
def decodeSelected (op : BitVec 4) (operands : List Byte) : Except Reject Instr :=
  match op.toNat with
  | 0x0 => decodeNullary .reset operands
  | 0x1 => decodeNullary .freecap operands
  | 0x2 => decodeEnq operands
  | 0x3 => decodeNullary .tick operands
  | 0x4 => decodeStartup operands
  | 0x5 => decodeNullary .fire operands
  | 0x8 => decodeNullary .deq operands
  | 0x9 => decodeCfg operands
  | 0xA => decodeNullary .genoff operands
  | _ => .error (.reservedSelector op)

/-- A call in OP format: the selector's byte, then the operands. -/
def decodeOp : List Byte → Except Reject Instr
  | [] => .error .emptyCall
  | b :: operands => decodeSelected (selector b) operands

/-- A SAMPLE word, in buffer order. -/
def decodeSample : List Byte → Except Reject Instr
  | [b0, b1, b2, b3] => .ok (sampleInstr (sampleOfBytes b0 b1 b2 b3))
  | _ => .error .notFourBytes

/-- Decoding, by format: the place an instruction is fetched from fixes its format. -/
def decode : Format → List Byte → Except Reject Instr
  | .op => decodeOp
  | .sample => decodeSample

/-! ### The encoder -/

/-- The bytes of an instruction, written from 30_encoding R51 (operations) and R47 (samples). -/
def encode : Instr → List Byte
  | .reset => [0x00#8]
  | .freecap => [0x01#8]
  | .enq length buffer => 0x02#8 :: (bytesOfWord length ++ buffer)
  | .tick => [0x03#8]
  | .startup rev => [0x04#8, rev]
  | .fire => [0x05#8]
  | .deq => [0x08#8]
  | .cfg f => 0x09#8 :: bytesOfHalf f
  | .genoff => [0x0A#8]
  | .rest dur => bytesOfSample ⟨0#16, dur⟩
  | .note freq dur => bytesOfSample ⟨freq, dur⟩

/-! ### The table's words -/

/-- How many operand bytes stand behind a selector when every one of them is 0: `ENQ` its `length`, `STARTUP` its
revision byte, `CFG` its frequency. -/
def zeroOperandBytes (op : BitVec 4) : Nat :=
  match op.toNat with
  | 0x2 => 4
  | 0x4 => 1
  | 0x9 => 2
  | _ => 0

/-- The call whose first byte is the low byte of `w` and whose operand bytes are all 0. -/
def tableCall (w : Nat) : List Byte :=
  BitVec.ofNat 8 w :: List.replicate (zeroOperandBytes (selector (BitVec.ofNat 8 w))) 0#8

/-- The four bytes of a SAMPLE word, the least significant first (30_encoding R46). -/
def tableSample (w : Nat) : List Byte := bytesOfWord (BitVec.ofNat 32 w)

/-- The instruction of a row of spec/opcode_table.json whose bits are `w`: the table gives an operation four bits, so one
byte, and a sample more than one byte; every bit above is 0 (assumption 4). -/
def decodeTableWord (nbits w : Nat) : Option Instr :=
  (if nbits ≤ 8 then decode .op (tableCall w) else decode .sample (tableSample w)).toOption

end Sys2Proof
end

