-- ==== Sys2Proof/Machine/State.lean ====
section
/-! DEFINITION. The machine's state, its state after reset, and the reasons a step can stop. -/

namespace Sys2Proof.Machine

/-- The five calls the block makes to the HAL (10_state R20). -/
inductive HalCall where
  | setOutput (level : Bool)
  | toggleOutput
  | configurePeriodicSource (period : Word)
  | enablePeriodicInterrupt
  | disablePeriodicInterrupt
  deriving DecidableEq, Repr

/-- The result of `ENQ` (30_encoding R53). The fourth code is reserved and never produced. -/
inductive EnqResult where
  | ok
  | malformedInput
  | queueFull
  deriving DecidableEq, Repr

/-- The sample buffer `Q`: the slots something has written, as pairs of a slot index and a sample, indices strictly
rising. A slot that is not listed holds an unspecified sample (10_state R24; assumptions 5 and 25). -/
abbrev Memory := List (Nat × Sample)

/-- The block's whole state: the items of 10_state R10, and nothing else. -/
structure Block where
  /-- `Q[0..31]` (10_state R11). -/
  mem : Memory
  /-- `write_pos`, the next free slot (10_state R12). -/
  writePos : SlotIx
  /-- `read_pos`, the next slot to consume (10_state R13). -/
  readPos : SlotIx
  /-- `elapsed` (10_state R14). -/
  elapsed : Word
  /-- `active_duration` (10_state R15). -/
  activeDuration : Word
  /-- `GEN_EN` (10_state R16). -/
  genEn : Bool
  /-- `GEN_PERIOD` (10_state R17). -/
  genPeriod : Word
  /-- `GEN_CNT` (10_state R18). -/
  genCnt : Word
  /-- `OUT`, high when true (10_state R19). -/
  out : Bool
  /-- `HALTRACE`, oldest call first (10_state R20). -/
  halTrace : List HalCall
  deriving DecidableEq, Repr

/-- What the environment does next (00_scope R8, 20_memory R39; assumption 1). -/
inductive Event where
  /-- A context calls an operation; the bytes are the call in OP format (30_encoding R51). -/
  | call (bytes : List Byte)
  /-- A place the environment leaves to the producer inside `STARTUP`: the next `ENQ` call of a `STARTUP` may come here
  (43_startup_sequencer R94; assumption 7). -/
  | startupTurn
  /-- The `ENQ` call a `STARTUP` makes for one repetition at field position `k` (43_startup_sequencer R91). -/
  | startupEnq (k : Fin 4)
  /-- One unit of the 1 MHz timing base: the step `USEC` of the timed refinement (42 R88; assumption 15). -/
  | usec
  deriving DecidableEq, Repr

/-- Which context is the one reader of the queue since `RESET` (30_encoding R52, 70 R126; assumption 9). -/
inductive Reader where
  | unclaimed
  | scheduler
  | harness
  deriving DecidableEq, Repr

/-- What an operation returns to its caller (30_encoding R51, column Result). It is handed over and kept nowhere
(10_state R21): no field of the state holds one, and `reply` computes it from the state the operation starts in. -/
inductive Reply where
  /-- The operation returns nothing. -/
  | nothing
  /-- `FREECAP` returns `free`, 5 bits. -/
  | freeCapacity (free : BitVec 5)
  /-- `ENQ` returns `res`. -/
  | enqueued (res : EnqResult)
  /-- `DEQ` returns `None` or `Some(freq, dur)`. -/
  | dequeued (res : Option Sample)
  deriving DecidableEq, Repr

/-- The machine: the block, and the model's own fields beside it. No rule of the block reads one of those. -/
structure State where
  /-- The block's own state (10_state R10). -/
  block : Block
  /-- The events no step has taken yet, the next one first (assumption 1). -/
  inbox : List Event
  /-- Which context reads the queue (assumption 9). -/
  reader : Reader
  deriving DecidableEq, Repr

/-- The block has no faults: "There are no fatal errors in this subsystem" (60_exceptions R104), and no access can fault
(20_memory R37). So the type has no constructor. -/
inductive Fault where
  deriving DecidableEq, Repr

/-- Why the model gives a situation no step. Every one is safe: the model speaks of no run beyond it. -/
inductive Refusal where
  /-- Raised by `exec` for an instruction without a meaning; safe. No arm raises it. -/
  | notModelled (mnemonic : String)
  /-- Raised by `step` when the environment has produced no event; safe (70 R139; assumption 2). -/
  | noEvent
  /-- Raised by `step` on a call whose bytes name no operation or no operands; safe (30 R54, 93 U15, U19). -/
  | undecodable (why : Reject)
  /-- Raised by `step` on a call of `CFG` or `GENOFF` from outside, which only `TICK` invokes; safe (30 R52, R54). -/
  | internalOperation
  /-- Raised by `step` on an `ENQ` or a `STARTUP` called while a `STARTUP` is in progress; safe (43 R94, 70 R127, 93 U17). -/
  | producerBusy
  /-- Raised by `step` on a `DEQ` call on a block on which a `TICK` has run; safe (30 R52, 93 U4). -/
  | dequeueBesideTick
  /-- Raised by `step` on a `TICK` on a block a test harness dequeues from; safe (70 R126). -/
  | tickBesideHarness
  /-- Raised by `step` at a place left to a `STARTUP` when no call of one is left to make; safe (assumption 7). -/
  | noStartupInProgress
  /-- Raised by `ENQ` when its buffer does not hold exactly `length` bytes; safe (93 U19). -/
  | bufferLengthMismatch
  /-- Raised by `FIRE` while `GEN_EN = 0`: "not a step of the block" (42 R85); safe (assumption 13). -/
  | fireWhileDisabled
  deriving DecidableEq, Repr

/-- The machine right after `RESET` (10_state R24): the queue empty, the scheduler idle, the generator disabled, the line
low, no slot written, the two HAL calls of `RESET` (70 R121) made, and no event produced yet. -/
def State.reset : State where
  block :=
    { mem := []
      writePos := 0#5
      readPos := 0#5
      elapsed := 0#32
      activeDuration := 0#32
      genEn := false
      genPeriod := 0#32
      genCnt := 0#32
      out := false
      halTrace := [.disablePeriodicInterrupt, .setOutput false] }
  inbox := []
  reader := .unclaimed

end Sys2Proof.Machine
end

