-- ==== Sys2Proof/Machine/Operands.lean ====
section
/-! DEFINITION. The operands of the operations: the samples of a burst, the fields of the revision byte, the toggle
period of a frequency, the codes of results. -/

namespace Sys2Proof.Machine

/-- The samples of a burst, sample 0 first (30_encoding R49). Bytes that make no whole group are no sample; `ENQ` never
reaches here with such bytes. -/
def samplesOf : List Byte → List Sample
  | b0 :: b1 :: b2 :: b3 :: rest => sampleOfBytes b0 b1 b2 b3 :: samplesOf rest
  | _ => []

/-- `length div 4`: how many samples a burst holds (30_encoding R49). -/
def sampleCount (length : Word) : Nat := length.toNat / Config.sampleBytes

/-- `res`, 2 bits (30_encoding R53). -/
def EnqResult.code : EnqResult → BitVec 2
  | .ok => 0#2
  | .malformedInput => 1#2
  | .queueFull => 2#2

/-- The boolean view of a result (30_encoding R53). -/
def EnqResult.succeeded : EnqResult → Bool
  | .ok => true
  | .malformedInput => false
  | .queueFull => false

/-- Field `k` of the revision byte, `rev[7-2k : 6-2k]`, in play order (30_encoding R50, 43 R90). -/
def revField (rev : Byte) (k : Fin 4) : BitVec 2 := rev.extractLsb' (6 - 2 * k.val) 2

/-- The field positions of the `ENQ` calls `STARTUP rev` makes, in order: position `k`, as often as the field's value
(43_startup_sequencer R91). -/
def startupCalls (rev : Byte) : List (Fin 4) :=
  List.replicate (revField rev 0).toNat 0 ++ (List.replicate (revField rev 1).toNat 1 ++
    (List.replicate (revField rev 2).toNat 2 ++ List.replicate (revField rev 3).toNat 3))

/-- The 8 bytes of one repetition: the tone at the position's frequency, then the silence (43_startup_sequencer R91). -/
def startupBurst (k : Fin 4) : List Byte :=
  bytesOfSample ⟨Config.startupFreq k, Config.noteMs⟩ ++ bytesOfSample ⟨0#16, Config.restMs⟩

/-- `toggle_period = (TIMEBASE_HZ div min(f, FREQ_MAX)) div 2` (42_square_wave_generator R81, R83). -/
def togglePeriod (f : Half) : Word :=
  BitVec.ofNat 32 (Config.timebaseHz / min f.toNat Config.freqMax / 2)

end Sys2Proof.Machine
end

