-- ==== Sys2Proof/Machine/Ops.lean ====
section
/-! DEFINITION. The named operations over the sample buffer, the cursors, the HAL and the generator, the calls of a
`STARTUP`, and how an operation ends. -/

namespace Sys2Proof.Machine

/-! ### The sample buffer (20_memory R30: addressed in whole slots) -/

/-- What has been written to slot `i`, if anything has. -/
def Memory.lookup : Memory → Nat → Option Sample
  | [], _ => none
  | (j, x) :: rest, i => if i = j then some x else Memory.lookup rest i

/-- `MemRead(i, 1)`, written `Q[i]` (00_scope R7): a slot nothing has written holds an unspecified sample. -/
def Memory.read (m : Memory) (i : SlotIx) : Sample :=
  (Memory.lookup m i.toNat).getD (Config.unspecifiedSlot i.toNat)

/-- Insert or replace the entry for slot `i`, keeping the indices strictly rising. -/
def Memory.insert : Memory → Nat → Sample → Memory
  | [], i, x => [(i, x)]
  | (j, y) :: rest, i, x =>
    if i < j then (i, x) :: (j, y) :: rest
    else if i = j then (i, x) :: rest
    else (j, y) :: Memory.insert rest i x

/-- `MemWrite(i, 1, s)`, written `Q[i] <- s` (00_scope R7). -/
def Memory.write (m : Memory) (i : SlotIx) (x : Sample) : Memory := Memory.insert m i.toNat x

/-- Every index listed is a slot, and above `lo`; the indices strictly rise. -/
def Memory.risingFrom : Nat → Memory → Bool
  | _, [] => true
  | lo, (j, _) :: rest => decide (lo ≤ j) && decide (j < Config.slots) && Memory.risingFrom (j + 1) rest

/-- The canonical form: each index listed is one of the 32 slots, and the indices strictly rise. So two buffers that hold
the same samples in the same written slots are equal data. -/
def Memory.wf (m : Memory) : Bool := Memory.risingFrom 0 m

/-- Write samples to consecutive slots from `i` on, wrapping at the end of the index space (40_tone_queue R62). -/
def Memory.writeBurst : Memory → SlotIx → List Sample → Memory
  | m, _, [] => m
  | m, i, x :: rest => Memory.writeBurst (m.write i x) (i + 1#5) rest

/-! ### The queue (40_tone_queue R60) -/

/-- `occupancy = (write_pos + N - read_pos) mod N` (40_tone_queue R60). -/
def Block.occupancy (b : Block) : Nat :=
  (b.writePos.toNat + Config.slots - b.readPos.toNat) % Config.slots

/-- `free_capacity = N - 1 - occupancy` (40_tone_queue R60, R61). -/
def Block.freeCapacity (b : Block) : Nat := Config.slots - 1 - b.occupancy

/-- Store a burst's samples and advance `write_pos`: "copy-then-advance" (40_tone_queue R62, 20_memory R42). -/
def Block.storeBurst (b : Block) (xs : List Sample) : Block :=
  { b with
    mem := b.mem.writeBurst b.writePos xs
    writePos := b.writePos + BitVec.ofNat 5 xs.length }

/-- `DEQ()` (40_tone_queue R63): the result, and the block after it. The slot is not cleared. -/
def Block.dequeue (b : Block) : Option Sample × Block :=
  if b.writePos = b.readPos then (none, b)
  else (some (b.mem.read b.readPos), { b with readPos := b.readPos + 1#5 })

/-! ### The HAL (10_state R20) -/

/-- The effect of a HAL call on the mirror registers (10_state R20). -/
def HalCall.effect : HalCall → Block → Block
  | .setOutput level, b => { b with out := level }
  | .toggleOutput, b => { b with out := !b.out }
  | .configurePeriodicSource p, b => { b with genCnt := 0#32, genPeriod := p }
  | .enablePeriodicInterrupt, b => { b with genEn := true }
  | .disablePeriodicInterrupt, b => { b with genEn := false }

/-- `hal(<call>)`: append the call to the trace and apply its effect (00_scope R7). -/
def Block.hal (b : Block) (c : HalCall) : Block :=
  c.effect { b with halTrace := b.halTrace ++ [c] }

/-! ### The generator (42_square_wave_generator) -/

/-- `GENOFF()`: disable the periodic interrupt, and nothing else (42 R82). -/
def Block.generatorOff (b : Block) : Block := b.hal .disablePeriodicInterrupt

/-- `CFG(f)` (42 R80 for frequency 0, R81 for every other). -/
def Block.configure (b : Block) (f : Half) : Block :=
  if f = 0#16 then b.hal .disablePeriodicInterrupt
  else (b.hal (.configurePeriodicSource (togglePeriod f))).hal .enablePeriodicInterrupt

/-- The body of the firing's handler: toggle the line (42 R85). -/
def Block.toggle (b : Block) : Block := b.hal .toggleOutput

/-- `USEC()`, one unit of the timing base (42 R88). -/
def Block.usec (b : Block) : Block :=
  if b.genEn then
    if b.genCnt + 1#32 = b.genPeriod then { b with genCnt := 0#32 }.toggle
    else { b with genCnt := b.genCnt + 1#32 }
  else b

/-! ### The scheduler's writes (41_playback_scheduler) -/

/-- One tick more has passed: `elapsed <- elapsed + 1` (41 R71, R72). -/
def Block.countTick (b : Block) : Block := { b with elapsed := b.elapsed + 1#32 }

/-- Branch 3 with a sample: configure the generator, load the duration, restart the count (41 R74). -/
def Block.startSample (b : Block) (x : Sample) : Block :=
  { b.configure x.freq with activeDuration := x.dur.setWidth 32, elapsed := 0#32 }

/-- Branch 3 with an empty queue: the idle pair (41 R73). -/
def Block.goIdle (b : Block) : Block :=
  { b.generatorOff with elapsed := 0#32, activeDuration := 0#32 }

/-! ### The calls of a `STARTUP` (43_startup_sequencer R91, R94; assumption 7) -/

/-- The field position of an `ENQ` call that a `STARTUP` makes; no other event is one. -/
def Event.startupPosition : Event → Option (Fin 4)
  | .call _ => none
  | .startupTurn => none
  | .startupEnq k => some k
  | .usec => none

/-- The calls that a `STARTUP` in progress has yet to make, by field position, the next one first. -/
def pendingCalls (es : List Event) : List (Fin 4) := es.filterMap Event.startupPosition

/-- The events without the calls of a `STARTUP`. -/
def withoutCalls (es : List Event) : List Event := es.filter fun e => e.startupPosition.isNone

/-- Put the calls of a `STARTUP` among the events to come, in order: one at each place the environment leaves to the
producer, and those left over right after the last such place (at once, where there is none). -/
def scheduleCalls : List (Fin 4) → List Event → List Event
  | [], es => es
  | k :: ks, [] => (k :: ks).map .startupEnq
  | k :: ks, e :: es =>
    if e = .startupTurn then .startupEnq k :: scheduleCalls ks es
    else if .startupTurn ∈ es then e :: scheduleCalls (k :: ks) es
    else (k :: ks).map .startupEnq ++ e :: es

/-! ### The end of an operation -/

/-- An operation ends, with the block after it. -/
def State.answer (s : State) (b : Block) : Host.Outcome State Fault Refusal := .next { s with block := b }

/-- What the block has in place of taking an exception (60_exceptions R100, R103): the operation ends at once, nothing
has been written, and the reason is handed to the caller. There is no handler, no vector and no saved context, and so no
return from one (60 R109, R110). -/
def Block.reject (b : Block) (why : EnqResult) : EnqResult × Block := (why, b)

end Sys2Proof.Machine
end

