-- ==== Sys2Proof/Machine/Flags.lean ====
section
/-! DEFINITION. The conditions the operations test. The block has no flags register (10_state R21): each is computed from
the state and the operands when an operation needs it. -/

namespace Sys2Proof.Machine

/-- The queue is empty exactly when the cursors are equal (40_tone_queue R60). -/
def Block.isEmpty (b : Block) : Bool := b.writePos == b.readPos

/-- Check 1 of `ENQ`: the length is no multiple of 4 (40 R62, 60 R101). -/
def malformed (length : Word) : Bool := length.toNat % Config.sampleBytes != 0

/-- Check 2 of `ENQ`: the burst is not strictly smaller than the free capacity (40 R62, 60 R102). -/
def Block.full (b : Block) (length : Word) : Bool := decide (b.freeCapacity ≤ sampleCount length)

/-- What `ENQ` answers: the length is checked first (40 R62, 60 R105). -/
def Block.enqResult (b : Block) (length : Word) : EnqResult :=
  if malformed length then .malformedInput
  else if b.full length then .queueFull
  else .ok

/-- The labels of the scheduler's pair, which are computed and not stored (41 R75; `Idle` is the pair (0, 0), a case of
`gap`). -/
inductive Phase where
  | sounding
  | gap
  | due
  deriving DecidableEq, Repr

/-- Which branch a tick takes, in the order 41 R70 evaluates them; both comparisons are unsigned, at 32 bits
(assumption 26). -/
def Block.phase (b : Block) : Phase :=
  if b.elapsed < b.activeDuration then .sounding
  else if b.elapsed ≤ b.activeDuration + Config.gapTicks then .gap
  else .due

end Sys2Proof.Machine
end

