-- ==== Sys2Proof/Machine/Generator.lean ====
section
/-! DEFINITION. The Square-Wave Generator (42_square_wave_generator): `CFG`, `GENOFF`, `FIRE`. -/

namespace Sys2Proof.Machine

/-- `CFG(f)` (42 R80, R81). -/
def execCfg (f : Half) (s : State) : Host.Outcome State Fault Refusal :=
  s.answer (s.block.configure f)

/-- `GENOFF` (42 R82). -/
def execGenoff (s : State) : Host.Outcome State Fault Refusal :=
  s.answer s.block.generatorOff

/-- `FIRE`: enabled only while `GEN_EN = 1`; with `GEN_EN = 0` it is not a step of the block (42 R85; assumption 13). -/
def execFire (s : State) : Host.Outcome State Fault Refusal :=
  if s.block.genEn then s.answer s.block.toggle
  else .refused .fireWhileDisabled

end Sys2Proof.Machine
end

