-- ==== Sys2Proof/Machine/Queue.lean ====
section
/-! DEFINITION. The Tone Queue (40_tone_queue): `FREECAP`, `ENQ`, `DEQ`. -/

namespace Sys2Proof.Machine

/-- `FREECAP`: a pure read of the two cursors (40 R61); its answer is `reply`'s. -/
def execFreecap (s : State) : Host.Outcome State Fault Refusal :=
  s.answer s.block

/-- `ENQ` on a buffer of exactly `length` bytes (40 R62): the result, and the block after it. -/
def Block.enqueue (b : Block) (length : Word) (buffer : List Byte) : EnqResult × Block :=
  match b.enqResult length with
  | .ok => (.ok, b.storeBurst (samplesOf buffer))
  | .malformedInput => b.reject .malformedInput
  | .queueFull => b.reject .queueFull

/-- `ENQ` (40 R62). A buffer that does not hold `length` bytes is no call of the block (93 U19). -/
def execEnq (length : Word) (buffer : List Byte) (s : State) : Host.Outcome State Fault Refusal :=
  if buffer.length = length.toNat then s.answer (s.block.enqueue length buffer).2
  else .refused .bufferLengthMismatch

/-- `DEQ` (40 R63), as a test harness calls it (30 R52); `TICK` runs the same operation inside its own step. -/
def execDeq (s : State) : Host.Outcome State Fault Refusal :=
  s.answer s.block.dequeue.2

end Sys2Proof.Machine
end

