-- ==== Sys2Proof/Machine/Reset.lean ====
section
/-! DEFINITION. Reset (70_reset_and_hazards, section 1). -/

namespace Sys2Proof.Machine

/-- The block after `RESET()`, in the order 70 R120 writes it: the slots of `Q` are left as they are. -/
def Block.initialise (b : Block) : Block :=
  let idle : Block :=
    { b with
      writePos := 0#5
      readPos := 0#5
      elapsed := 0#32
      activeDuration := 0#32
      halTrace := [] }
  { (idle.hal .disablePeriodicInterrupt).hal (.setOutput false) with genPeriod := 0#32, genCnt := 0#32 }

/-- `RESET` (70 R120). Nothing survives it but the slots (70 R123): the block is initialised, the calls of a `STARTUP` in
progress are dropped, and no context has read the queue. -/
def execReset (s : State) : Host.Outcome State Fault Refusal :=
  State.answer { s with inbox := withoutCalls s.inbox, reader := .unclaimed } s.block.initialise

end Sys2Proof.Machine
end

