-- ==== Sys2Proof/Machine/Scheduler.lean ====
section
/-! DEFINITION. The Playback Scheduler (41_playback_scheduler): `TICK`, and the samples it executes, `REST` and `NOTE`. -/

namespace Sys2Proof.Machine

/-- `REST`: a fetched sample of frequency 0 (41 R74, R76): the generator is disabled while the duration runs. -/
def execRest (dur : Half) (s : State) : Host.Outcome State Fault Refusal :=
  s.answer (s.block.startSample ⟨0#16, dur⟩)

/-- `NOTE`: a fetched sample of another frequency (41 R74): the generator is configured while the duration runs. -/
def execNote (freq dur : Half) (s : State) : Host.Outcome State Fault Refusal :=
  s.answer (s.block.startSample ⟨freq, dur⟩)

/-- The block after `TICK()`: exactly one of the branches of 41 R70, chosen from the pair it finds. -/
def Block.tick (b : Block) : Block :=
  match b.phase with
  | .sounding => b.countTick
  | .gap => b.generatorOff.countTick
  | .due =>
    match b.dequeue with
    | (none, b') => b'.goIdle
    | (some x, b') => b'.startSample x

/-- `TICK` (41 R70): no arguments, no return value, never fails. -/
def execTick (s : State) : Host.Outcome State Fault Refusal :=
  s.answer s.block.tick

end Sys2Proof.Machine
end

