-- ==== Sys2Proof/Machine/Startup.lean ====
section
/-! DEFINITION. The Startup Sequencer (43_startup_sequencer): the pseudo-operation `STARTUP`. -/

namespace Sys2Proof.Machine

/-- `STARTUP rev` expands into the `ENQ` calls of 43 R91. They are steps of their own, between which other agents may
step (43 R94): they go among the events to come. The block keeps nothing of `rev` (10_state R21). -/
def execStartup (rev : Byte) (s : State) : Host.Outcome State Fault Refusal :=
  .next { s with inbox := scheduleCalls (startupCalls rev) s.inbox }

/-- One call of a `STARTUP`: an ordinary `ENQ` of 8 bytes, its result ignored (43 R91, R92). -/
def State.startupEnq (s : State) (k : Fin 4) : Host.Outcome State Fault Refusal :=
  execEnq 8#32 (startupBurst k) s

end Sys2Proof.Machine
end

