-- ==== Sys2Proof/Machine/Dispatch.lean ====
section
/-! DEFINITION. One arm per instruction. -/

namespace Sys2Proof.Machine

def exec (i : Instr) (s : State) : Host.Outcome State Fault Refusal :=
  match i with
  | .reset => Sys2Proof.Machine.execReset s
  | .freecap => Sys2Proof.Machine.execFreecap s
  | .enq length buffer => Sys2Proof.Machine.execEnq length buffer s
  | .tick => Sys2Proof.Machine.execTick s
  | .startup rev => Sys2Proof.Machine.execStartup rev s
  | .fire => Sys2Proof.Machine.execFire s
  | .deq => Sys2Proof.Machine.execDeq s
  | .cfg f => Sys2Proof.Machine.execCfg f s
  | .genoff => Sys2Proof.Machine.execGenoff s
  | .rest dur => Sys2Proof.Machine.execRest dur s
  | .note freq dur => Sys2Proof.Machine.execNote freq dur s

end Sys2Proof.Machine
end

