-- ==== Sys2Proof/Machine/Results.lean ====
section
/-! DEFINITION. What each operation returns to its caller (30_encoding R51, column Result). -/

namespace Sys2Proof.Machine

/-- What `i`, run in the state `s`, returns to its caller: "reported synchronously", and kept nowhere (10_state R21). -/
def reply (i : Instr) (s : State) : Reply :=
  match i with
  | .reset => .nothing
  | .freecap => .freeCapacity (BitVec.ofNat 5 s.block.freeCapacity)
  | .enq length buffer => .enqueued (s.block.enqueue length buffer).1
  | .tick => .nothing
  | .startup _ => .nothing
  | .fire => .nothing
  | .deq => .dequeued s.block.dequeue.1
  | .cfg _ => .nothing
  | .genoff => .nothing
  | .rest _ => .nothing
  | .note _ _ => .nothing

end Sys2Proof.Machine
end

