-- ==== Sys2Proof/Machine/Invoke.lean ====
section
/-! DEFINITION. From an event to a step: who may call what, how a call is decoded and run, and how an instruction is
placed so that the next step runs it. -/

namespace Sys2Proof.Machine

/-- Why a decoded call is turned away, if it is. `CFG`, `GENOFF` and the samples are reached only from `TICK` (30 R52,
R54); the queue has one reader (70 R126); a `STARTUP` in progress excludes another `ENQ` or `STARTUP` (43 R94, 70 R127). -/
def State.turnedAway (s : State) : Instr → Option Refusal
  | .reset => none
  | .freecap => none
  | .enq _ _ => if (pendingCalls s.inbox).isEmpty then none else some .producerBusy
  | .tick => if s.reader = .harness then some .tickBesideHarness else none
  | .startup _ => if (pendingCalls s.inbox).isEmpty then none else some .producerBusy
  | .fire => none
  | .deq => if s.reader = .scheduler then some .dequeueBesideTick else none
  | .cfg _ => some .internalOperation
  | .genoff => some .internalOperation
  | .rest _ => some .internalOperation
  | .note _ _ => some .internalOperation

/-- Who reads the queue in a call: a `TICK` makes it the scheduler, a `DEQ` call the harness (assumption 9). -/
def readerAfter (i : Instr) (r : Reader) : Reader :=
  match i with
  | .reset => r
  | .freecap => r
  | .enq _ _ => r
  | .tick => .scheduler
  | .startup _ => r
  | .fire => r
  | .deq => .harness
  | .cfg _ => r
  | .genoff => r
  | .rest _ => r
  | .note _ _ => r

/-- Run a decoded call. -/
def State.invoke (s : State) (i : Instr) : Host.Outcome State Fault Refusal :=
  match s.turnedAway i with
  | some why => .refused why
  | none => exec i { s with reader := readerAfter i s.reader }

/-- Run a call from its bytes. -/
def State.runCall (s : State) (bytes : List Byte) : Host.Outcome State Fault Refusal :=
  match decode .op bytes with
  | .error why => .refused (.undecodable why)
  | .ok i => s.invoke i

/-- Run one event. -/
def State.runEvent (s : State) : Event → Host.Outcome State Fault Refusal
  | .call bytes => s.runCall bytes
  | .startupTurn => .refused .noStartupInProgress
  | .startupEnq k => s.startupEnq k
  | .usec => s.answer s.block.usec

/-- Take the next event and run it. Without one the block makes no step of its own (70 R139; assumption 2). -/
def State.runNext (s : State) : Host.Outcome State Fault Refusal :=
  match s.inbox with
  | [] => .refused .noEvent
  | e :: rest => State.runEvent { s with inbox := rest } e

/-- What the next step, if it is a call that runs, returns to its caller. A `STARTUP` ignores the results of its own calls
(43 R91). -/
def State.nextReply (s : State) : Option Reply :=
  match s.inbox with
  | .call bytes :: _ => (decode .op bytes).toOption.map fun i => reply i s
  | _ => none

/-! ### Placing an instruction (assumption 12) -/

/-- A call is the next event. -/
def State.placeCall (s : State) (bytes : List Byte) : State := { s with inbox := .call bytes :: s.inbox }

/-- A tick is the next event, and the scheduler may take it. -/
def State.placeTick (s : State) : State :=
  { s with reader := .scheduler }.placeCall (encode .tick)

/-- The block with the sample `x` in the slot `read_pos` names, that slot live, and the gap over. -/
def Block.withDueSample (b : Block) (x : Sample) : Block :=
  { b with
    mem := b.mem.write b.readPos x
    writePos := if b.writePos = b.readPos then b.readPos + 1#5 else b.writePos
    elapsed := Config.gapTicks + 1#32
    activeDuration := 0#32 }

/-- The next step is a tick that fetches and runs the sample `x`. -/
def State.placeSample (s : State) (x : Sample) : State :=
  { s with block := s.block.withDueSample x }.placeTick

/-- Arrange that the very next step runs `i`, whose bytes are `bytes`. -/
def State.place (s : State) (bytes : List Byte) : Instr → State
  | .reset => s.placeCall bytes
  | .freecap => s.placeCall bytes
  | .enq _ _ => { s with inbox := withoutCalls s.inbox }.placeCall bytes
  | .tick => { s with reader := .scheduler }.placeCall bytes
  | .startup _ => { s with inbox := withoutCalls s.inbox }.placeCall bytes
  | .fire => { s with block := { s.block with genEn := true } }.placeCall bytes
  | .deq => { s with reader := .harness }.placeCall bytes
  | .cfg f => s.placeSample ⟨f, 0#16⟩
  | .genoff => { s with block := { s.block with elapsed := 0#32, activeDuration := 0#32 } }.placeTick
  | .rest dur => s.placeSample ⟨0#16, dur⟩
  | .note freq dur => s.placeSample ⟨freq, dur⟩

/-- Arrange that the very next step runs the instruction of a table word; a word that is none is placed as it is. -/
def State.placeWord (s : State) (nbits w : Nat) : State :=
  match decodeTableWord nbits w with
  | none => s.placeCall (tableCall w)
  | some i => s.place (tableCall w) i

end Sys2Proof.Machine
end

