-- ==== Sys2Proof/Machine/Step.lean ====
section
/-! DEFINITION. One step of the machine, and where the host places an instruction. -/

namespace Sys2Proof.Machine

/-- One atomic step: the next event of the environment (20_memory R39). -/
def step (s : State) : Host.Outcome State Fault Refusal := s.runNext

/-- `s` with the instruction of a table word arranged to be the very next thing `step` runs (assumption 12). -/
def State.withFetchWord (s : State) (nbits w : Nat) : State := s.placeWord nbits w

end Sys2Proof.Machine
end

