-- ==== Sys2Proof/Safety.lean ====
section
/-! DEFINITION. The terms claims are made in: the samples in the queue, the invariant of every reachable state, what the
HAL trace says of the mirror registers, and the schedules of the timed refinement. -/

namespace Sys2Proof.Machine

/-- The slot of the `k`-th live sample (10_state R11: `read_pos, read_pos + 1, ...` taken `mod N`). -/
def Block.slotAt (b : Block) (k : Nat) : SlotIx := b.readPos + BitVec.ofNat 5 k

/-- `n` steps in a row, stopping at the first that does not answer: the run of the machine (`Sys2Proof.core`). -/
def runSteps : Nat → State → Host.Outcome State Fault Refusal
  | 0, s => .next s
  | n + 1, s =>
    match step s with
    | .next t => runSteps n t
    | .fault why => .fault why
    | .refused why => .refused why

/-- The samples in the queue, oldest first: the content of the live slots (10_state R11). -/
def Block.live (b : Block) : List Sample :=
  (List.range b.occupancy).map fun k => b.mem.read (b.slotAt k)

/-- What holds in every state reachable from reset (10_state R26 and the ranges of R10). The two clauses about `GEN_CNT`
take in the timed refinement (42 R88). -/
structure Block.Inv (b : Block) : Prop where
  /-- The buffer is in canonical form. -/
  memWf : b.mem.wf = true
  /-- At most `N - 2` samples are ever queued (40 R66). -/
  occupancyBound : b.occupancy ≤ 30
  /-- Every live slot has been written (10_state R26). -/
  liveWritten : ∀ k < b.occupancy, (Memory.lookup b.mem (b.slotAt k).toNat).isSome = true
  /-- `active_duration <= 65535`. -/
  durationBound : b.activeDuration.toNat ≤ 65535
  /-- `elapsed <= active_duration + GAP_TICKS + 1` (41 R77). -/
  elapsedBound : b.elapsed.toNat ≤ b.activeDuration.toNat + 6
  /-- `GEN_PERIOD` is 0, or lies in 50..500000 (10_state R10, R17). -/
  periodRange : b.genPeriod = 0#32 ∨ 50 ≤ b.genPeriod.toNat ∧ b.genPeriod.toNat ≤ 500000
  /-- An enabled generator has a period that was programmed. -/
  enabledPeriod : b.genEn = true → b.genPeriod ≠ 0#32
  /-- The generator is enabled only up to the end of the sounding sample. -/
  enabledSounding : b.genEn = true → b.elapsed.toNat ≤ b.activeDuration.toNat
  /-- `GEN_CNT` stays in `0..GEN_PERIOD` (10_state R10). -/
  counterRange : b.genCnt.toNat ≤ b.genPeriod.toNat
  /-- Between steps an enabled counter is below the period: at the period it has been set to 0 (42 R88). -/
  enabledCounter : b.genEn = true → b.genCnt.toNat < b.genPeriod.toNat

/-- The mirror registers `GEN_EN`, `GEN_PERIOD` and `OUT` as a HAL trace leaves them (10_state R20). -/
structure Mirrors where
  genEn : Bool
  genPeriod : Word
  out : Bool
  deriving DecidableEq, Repr

/-- What one HAL call does to the mirror registers (the table of 10_state R20). -/
def Mirrors.after (m : Mirrors) : HalCall → Mirrors
  | .setOutput level => { m with out := level }
  | .toggleOutput => { m with out := !m.out }
  | .configurePeriodicSource p => { m with genPeriod := p }
  | .enablePeriodicInterrupt => { m with genEn := true }
  | .disablePeriodicInterrupt => { m with genEn := false }

/-- The mirror registers after a whole trace, from the values of reset. -/
def Mirrors.ofTrace (t : List HalCall) : Mirrors := t.foldl Mirrors.after ⟨false, 0#32, false⟩

/-- The mirror registers a block holds. -/
def Block.mirrors (b : Block) : Mirrors := ⟨b.genEn, b.genPeriod, b.out⟩

/-- The calls a `STARTUP` in progress has yet to make all fit: two samples each, and at most 30 samples in the queue
(43 R93). -/
def State.StartupFits (s : State) : Prop := s.block.occupancy + 2 * (pendingCalls s.inbox).length ≤ 30

/-- A schedule before its `STARTUP` is expanded: each call of a `STARTUP` is a place left to the producer. -/
def Event.asTurn : Event → Event
  | .call bytes => .call bytes
  | .startupTurn => .startupTurn
  | .startupEnq _ => .startupTurn
  | .usec => .usec

/-- The two samples of one repetition at field position `k` (43 R91). -/
def repetition (k : Fin 4) : List Sample := [⟨Config.startupFreq k, 150#16⟩, ⟨0#16, 15#16⟩]

/-- The schedules of the timed refinement (42 R88): a tick comes after every `TIMEBASE_HZ div TICK_HZ = 1000` units of the
timing base, the first one after `phase` units, and no firing comes but from such a unit. -/
def timedSchedule : Nat → List Event → Bool
  | _, [] => true
  | phase, .usec :: rest => decide (0 < phase) && timedSchedule (phase - 1) rest
  | phase, .startupTurn :: rest => timedSchedule phase rest
  | phase, .startupEnq _ :: rest => timedSchedule phase rest
  | phase, .call bytes :: rest =>
    match decode .op bytes with
    | .ok .tick => decide (phase = 0) && timedSchedule (Config.timebaseHz / Config.tickHz) rest
    | .ok .fire => false
    | _ => timedSchedule phase rest

end Sys2Proof.Machine
end

