-- ==== Sys2Proof/Certificates/Slice0/Obligations.lean ====
section
/-! DEFINITION. The statements for the provers. Each says which rule of spec/ it formalises; one that rests on a choice of
the model, or on a decision or an inference the spec marks as its own, says so. In each, `.next { s with … }` is the whole
next state: whatever it does not name is unchanged. -/

open Sys2Proof Sys2Proof.Machine

/-! ### Encodings -/

/-- 30_encoding, sections 1.1 and 1.4: every well-formed instruction decodes from its own encoding, with every operand at
every value. Where the operands of an operation stand is the model's choice (assumption 3). -/
def Obligations.DecodeEncodeRoundTrip : Prop :=
  ∀ i : Instr, i.wellFormed = true → decode i.format (encode i) = .ok i

/-- 30_encoding R47 (derived there from R46, whose byte order is the spec's decision D4). -/
def Obligations.SampleEncodingIsBijection : Prop :=
  (∀ freq dur : Half, ∃ b0 b1 b2 b3 : Byte,
    bytesOfSample ⟨freq, dur⟩ = [b0, b1, b2, b3] ∧ sampleOfBytes b0 b1 b2 b3 = ⟨freq, dur⟩ ∧
    b0.toNat = freq.toNat % 256 ∧ b1.toNat = freq.toNat / 256 ∧
    b2.toNat = dur.toNat % 256 ∧ b3.toNat = dur.toNat / 256) ∧
  (∀ b0 b1 b2 b3 : Byte, bytesOfSample (sampleOfBytes b0 b1 b2 b3) = [b0, b1, b2, b3])

/-- 30_encoding section 1.1: a SAMPLE word is a `REST` exactly when its frequency field is 0, and a `NOTE` otherwise; its
fields are `b0 + 256 * b1` and `b2 + 256 * b3`. -/
def Obligations.SampleClassByFrequency : Prop :=
  ∀ b0 b1 b2 b3 : Byte,
    decode .sample [b0, b1, b2, b3] =
      .ok (if b0.toNat + 256 * b1.toNat = 0 then .rest (BitVec.ofNat 16 (b2.toNat + 256 * b3.toNat))
        else .note (BitVec.ofNat 16 (b0.toNat + 256 * b1.toNat)) (BitVec.ofNat 16 (b2.toNat + 256 * b3.toNat)))

/-- A few encodings written out from 30_encoding (R51) and 95_test_vectors (X1, X2). Where the selector and the operands of a
call stand is the model's choice (assumption 3). -/
def Obligations.SpecWordsDecode : Prop :=
  decode .op [0x00#8] = .ok .reset ∧
  decode .op [0x01#8] = .ok .freecap ∧
  decode .op [0x02#8, 0x04#8, 0x00#8, 0x00#8, 0x00#8, 0xB8#8, 0x01#8, 0x64#8, 0x00#8] =
    .ok (.enq 4#32 [0xB8#8, 0x01#8, 0x64#8, 0x00#8]) ∧
  decode .op [0x03#8] = .ok .tick ∧
  decode .op [0x04#8, 0x6C#8] = .ok (.startup 0x6C#8) ∧
  decode .op [0x05#8] = .ok .fire ∧
  decode .op [0x09#8, 0xB8#8, 0x01#8] = .ok (.cfg 440#16) ∧
  decode .sample [0xB8#8, 0x01#8, 0x64#8, 0x00#8] = .ok (.note 440#16 100#16) ∧
  decode .sample [0x00#8, 0x00#8, 0x0F#8, 0x00#8] = .ok (.rest 15#16)

/-- Whatever bytes decode as a call are the encoding of the instruction decoded, but for the high four bits of the
selector's byte, which the table's mask leaves out (assumption 3): the decoder drops no other bit. -/
def Obligations.DecodedCallIsItsEncoding : Prop :=
  ∀ (b : Byte) (operands : List Byte) (i : Instr), decode .op (b :: operands) = .ok i →
    i.wellFormed = true ∧ i.format = .op ∧ encode i = (b &&& 0x0F#8) :: operands

/-- 30_encoding section 2 (the spec's decision D8): a call with a reserved selector is refused, whatever its operands. -/
def Obligations.ReservedSelectorsRefused : Prop :=
  ∀ (s : State) (b : Byte) (operands : List Byte) (rest : List Event),
    s.inbox = .call (b :: operands) :: rest → b.toNat % 16 ∈ [6, 7, 11, 12, 13, 14, 15] →
    step s = .refused (.undecodable (.reservedSelector (BitVec.ofNat 4 b.toNat)))

/-! ### Steps -/

/-- A step runs the instruction its call decodes to, and hands the instruction's result to the caller: the event is taken
from the inbox, and the reader of the queue is noted (assumptions 1 and 9: the model's choices). -/
def Obligations.StepRunsDecodedCall : Prop :=
  ∀ (s : State) (bytes : List Byte) (rest : List Event) (i : Instr),
    s.inbox = .call bytes :: rest → decode .op bytes = .ok i → s.turnedAway i = none →
    step s = exec i { s with inbox := rest, reader := readerAfter i s.reader } ∧
    s.nextReply = some (reply i { s with inbox := rest, reader := readerAfter i s.reader })

/-- 30_encoding sections 1.4 and 2, 70_reset_and_hazards section 3: which calls are turned away, and by which name. The
names and the bookkeeping of the reader are the model's choices (assumptions 8, 9, 10). -/
def Obligations.WhichCallsAreTurnedAway : Prop :=
  ∀ (s : State) (bytes : List Byte) (rest : List Event) (i : Instr),
    s.inbox = .call bytes :: rest → decode .op bytes = .ok i →
    ((i = .genoff ∨ ∃ f, i = .cfg f) → step s = .refused .internalOperation) ∧
    (i = .deq → s.reader = .scheduler → step s = .refused .dequeueBesideTick) ∧
    (i = .tick → s.reader = .harness → step s = .refused .tickBesideHarness) ∧
    (((∃ length buffer, i = .enq length buffer) ∨ ∃ rev, i = .startup rev) → pendingCalls rest ≠ [] →
      step s = .refused .producerBusy) ∧
    (i ≠ .genoff → (∀ f, i ≠ .cfg f) → (i = .deq → s.reader ≠ .scheduler) → (i = .tick → s.reader ≠ .harness) →
      (((∃ length buffer, i = .enq length buffer) ∨ ∃ rev, i = .startup rev) → pendingCalls rest = []) →
      s.turnedAway i = none)

/-- 41_playback_scheduler section 1: a tick that finds the gap over and the queue not empty takes the sample at `read_pos`,
moves the cursor on, and runs that sample as the `REST` or `NOTE` it decodes to. -/
def Obligations.TickRunsFetchedSample : Prop :=
  ∀ s : State, s.block.activeDuration.toNat ≤ 65535 → s.block.activeDuration.toNat + 5 < s.block.elapsed.toNat →
    s.block.writePos ≠ s.block.readPos →
    exec .tick s =
      exec (sampleInstr (s.block.mem.read s.block.readPos))
        { s with block := { s.block with readPos := s.block.readPos + 1#5 } }

/-- 43_startup_sequencer, the paragraphs at R91 and R92: each call of a `STARTUP` is an ordinary `ENQ` of 8 bytes, the tone and
then the silence, and its result is ignored; with no room it is dropped, and nothing but the event is gone. That the calls
are events of their own is the model's choice (assumption 7). -/
def Obligations.StartupCallIsOrdinaryEnq : Prop :=
  ∀ (s : State) (rest : List Event) (k : Fin 4), s.inbox = .startupEnq k :: rest →
    step s = exec (.enq 8#32 (bytesOfSample ⟨Config.startupFreq k, 150#16⟩ ++ bytesOfSample ⟨0#16, 15#16⟩))
      { s with inbox := rest } ∧
    (∃ t, step s = .next t) ∧
    (s.block.freeCapacity ≤ 2 → step s = .next { s with inbox := rest })

/-! ### Reset -/

/-- 70_reset_and_hazards section 1: `RESET` sets every register to its reset value and leaves the slots as they are; the calls
of a `STARTUP` in progress are dropped, and no context has read the queue. The cursors' numbers and the generator's values are
the spec's decisions D1 and D13; the model's own fields are assumptions 7 and 9. -/
def Obligations.ResetEffect : Prop :=
  ∀ s : State, exec .reset s = .next {
    block := { State.reset.block with mem := s.block.mem }
    inbox := s.inbox.filter fun e => e.startupPosition.isNone
    reader := .unclaimed }

/-- 10_state section 6: the values after reset (the numbers are the spec's decisions D1, D2, D13). -/
def Obligations.ResetStateValues : Prop :=
  State.reset.block.mem = [] ∧ State.reset.block.writePos = 0#5 ∧ State.reset.block.readPos = 0#5 ∧
  State.reset.block.elapsed = 0#32 ∧ State.reset.block.activeDuration = 0#32 ∧
  State.reset.block.genEn = false ∧ State.reset.block.genPeriod = 0#32 ∧ State.reset.block.genCnt = 0#32 ∧
  State.reset.block.out = false ∧
  State.reset.block.halTrace = [.disablePeriodicInterrupt, .setOutput false]

/-! ### The Tone Queue -/

/-- 40_tone_queue R61: `FREECAP` answers `N - 1 - ((write_pos + N - read_pos) mod N)` and writes nothing; 31 when the queue is
empty, never 0 in a reachable state; the largest burst `ENQ` accepts is one sample less, and a burst of as many samples as it
answers is rejected. -/
def Obligations.FreecapReturnsFreeCapacity : Prop :=
  ∀ s : State,
    exec .freecap s = .next s ∧
    reply .freecap s =
      .freeCapacity (BitVec.ofNat 5 (31 - (s.block.writePos.toNat + 32 - s.block.readPos.toNat) % 32)) ∧
    (s.block.writePos = s.block.readPos → reply .freecap s = .freeCapacity 31#5) ∧
    (s.block.Inv → reply .freecap s ≠ .freeCapacity 0#5) ∧
    (∀ (length : Word) (buffer : List Byte), buffer.length = length.toNat →
      (length.toNat = 4 * (31 - (s.block.writePos.toNat + 32 - s.block.readPos.toNat) % 32) →
        exec (.enq length buffer) s = .next s ∧ reply (.enq length buffer) s = .enqueued .queueFull) ∧
      (length.toNat + 4 = 4 * (31 - (s.block.writePos.toNat + 32 - s.block.readPos.toNat) % 32) →
        (∃ t, exec (.enq length buffer) s = .next t) ∧ reply (.enq length buffer) s = .enqueued .ok))

/-- 40_tone_queue section 3, the success path: sample `i` of the burst goes to slot `(write_pos + i) mod N`, every other slot
reads as before, and `write_pos` advances by the count. The byte order within a field is the spec's decision D4. -/
def Obligations.EnqStoresBurst : Prop :=
  ∀ (s : State) (length : Word) (buffer : List Byte), buffer.length = length.toNat → length.toNat % 4 = 0 →
    length.toNat / 4 < 31 - (s.block.writePos.toNat + 32 - s.block.readPos.toNat) % 32 →
    reply (.enq length buffer) s = .enqueued .ok ∧
    ∃ m : Memory,
      exec (.enq length buffer) s = .next { s with
        block := { s.block with mem := m, writePos := s.block.writePos + BitVec.ofNat 5 (length.toNat / 4) } } ∧
      (∀ i < length.toNat / 4, m.read (s.block.writePos + BitVec.ofNat 5 i) =
        ⟨BitVec.ofNat 16 ((buffer.getD (4 * i) 0#8).toNat + 256 * (buffer.getD (4 * i + 1) 0#8).toNat),
          BitVec.ofNat 16 ((buffer.getD (4 * i + 2) 0#8).toNat + 256 * (buffer.getD (4 * i + 3) 0#8).toNat)⟩) ∧
      (∀ j : SlotIx, (∀ i < length.toNat / 4, j ≠ s.block.writePos + BitVec.ofNat 5 i) →
        m.read j = s.block.mem.read j)

/-- 60_exceptions R101: `MALFORMED_INPUT` exactly when the length is no multiple of 4, in every state; nothing changes. -/
def Obligations.MalformedLengthRejected : Prop :=
  ∀ (s : State) (length : Word) (buffer : List Byte), buffer.length = length.toNat →
    (length.toNat % 4 ≠ 0 →
      exec (.enq length buffer) s = .next s ∧ reply (.enq length buffer) s = .enqueued .malformedInput) ∧
    (length.toNat % 4 = 0 → reply (.enq length buffer) s ≠ .enqueued .malformedInput)

/-- 60_exceptions R102: `QUEUE_FULL` exactly when the length is a multiple of 4 and the burst is not smaller than the free
capacity at the start of the step. -/
def Obligations.FullQueueRejected : Prop :=
  ∀ (s : State) (length : Word) (buffer : List Byte), buffer.length = length.toNat →
    (length.toNat % 4 = 0 → 31 - (s.block.writePos.toNat + 32 - s.block.readPos.toNat) % 32 ≤ length.toNat / 4 →
      exec (.enq length buffer) s = .next s ∧ reply (.enq length buffer) s = .enqueued .queueFull) ∧
    (¬ (length.toNat % 4 = 0 ∧ 31 - (s.block.writePos.toNat + 32 - s.block.readPos.toNat) % 32 ≤ length.toNat / 4) →
      reply (.enq length buffer) s ≠ .enqueued .queueFull)

/-- 40_tone_queue R65: a rejected `ENQ` changes no piece of state at all. -/
def Obligations.RejectionChangesNothing : Prop :=
  ∀ (s : State) (length : Word) (buffer : List Byte), buffer.length = length.toNat →
    (length.toNat % 4 ≠ 0 ∨ s.block.freeCapacity ≤ length.toNat / 4) →
    exec (.enq length buffer) s = .next s ∧ ∃ why, why ≠ EnqResult.ok ∧ reply (.enq length buffer) s = .enqueued why

/-- 40_tone_queue R64: a burst smaller than the free capacity `F` succeeds, leaves `F - c >= 1`, and touches neither
`read_pos` nor a slot outside the `c` written ones. -/
def Obligations.SuccessLowersFreeCapacity : Prop :=
  ∀ (s : State) (length : Word) (buffer : List Byte), buffer.length = length.toNat → length.toNat % 4 = 0 →
    length.toNat / 4 < s.block.freeCapacity →
    ∃ t, exec (.enq length buffer) s = .next t ∧ reply (.enq length buffer) s = .enqueued .ok ∧
      t.block.freeCapacity = s.block.freeCapacity - length.toNat / 4 ∧ 1 ≤ t.block.freeCapacity ∧
      reply .freecap t = .freeCapacity (BitVec.ofNat 5 (s.block.freeCapacity - length.toNat / 4)) ∧
      t.block.readPos = s.block.readPos ∧
      (∀ j : SlotIx, (∀ i < length.toNat / 4, j ≠ s.block.writePos + BitVec.ofNat 5 i) →
        t.block.mem.read j = s.block.mem.read j)

/-- 40_tone_queue R68: a zero-length `ENQ` returns `OK` and changes nothing wherever the free capacity is at least 1, so in
every reachable state; with no free capacity it is `QUEUE_FULL`. -/
def Obligations.ZeroLengthSucceeds : Prop :=
  ∀ s : State,
    exec (.enq 0#32 []) s = .next s ∧
    (1 ≤ s.block.freeCapacity → reply (.enq 0#32 []) s = .enqueued .ok) ∧
    (s.block.Inv → reply (.enq 0#32 []) s = .enqueued .ok) ∧
    (s.block.freeCapacity = 0 → reply (.enq 0#32 []) s = .enqueued .queueFull)

/-- 40_tone_queue R69 (derived there): 31 samples or more are rejected in every state, and 30 are accepted exactly by an
empty queue. -/
def Obligations.OversizeBurstRejected : Prop :=
  ∀ (s : State) (length : Word) (buffer : List Byte), buffer.length = length.toNat → length.toNat % 4 = 0 →
    (124 ≤ length.toNat →
      exec (.enq length buffer) s = .next s ∧ reply (.enq length buffer) s = .enqueued .queueFull) ∧
    (length.toNat = 120 →
      (reply (.enq length buffer) s = .enqueued .ok ↔ s.block.writePos = s.block.readPos))

/-- 93_implementation_defined U19: a buffer that does not hold `length` bytes is no call of the block (the refusal's name is
the model's, assumption 19). -/
def Obligations.BufferMismatchRefused : Prop :=
  ∀ (s : State) (length : Word) (buffer : List Byte), buffer.length ≠ length.toNat →
    exec (.enq length buffer) s = .refused .bufferLengthMismatch

/-- 40_tone_queue R63: `DEQ` answers `None` and changes nothing when the cursors are equal; otherwise it answers the sample at
`read_pos` and advances the cursor by one, from 31 to 0. -/
def Obligations.DeqReturnsOldest : Prop :=
  ∀ s : State,
    (s.block.writePos = s.block.readPos → exec .deq s = .next s ∧ reply .deq s = .dequeued none) ∧
    (s.block.writePos ≠ s.block.readPos →
      exec .deq s = .next { s with
        block := { s.block with readPos := BitVec.ofNat 5 ((s.block.readPos.toNat + 1) % 32) } } ∧
      reply .deq s = .dequeued (some (s.block.mem.read s.block.readPos)))

/-- 20_memory section 3, the paragraph at R36 (derived there): no `ENQ` overwrites a live slot. -/
def Obligations.EnqKeepsLiveSlots : Prop :=
  ∀ (s t : State) (length : Word) (buffer : List Byte), exec (.enq length buffer) s = .next t →
    ∀ k < s.block.occupancy, t.block.mem.read (s.block.slotAt k) = s.block.mem.read (s.block.slotAt k)

/-- 20_memory section 3, the paragraph at R36 (derived there): in a reachable state the slot a fetch reads has been written. -/
def Obligations.FetchedSlotWasWritten : Prop :=
  ∀ b : Block, b.Inv → b.writePos ≠ b.readPos →
    ∃ x, Memory.lookup b.mem b.readPos.toNat = some x ∧ (b.dequeue).1 = some x

/-- 20_memory section 4 (R40) and 40_tone_queue section 5 (R67), as a refinement: on the list of live samples, oldest first,
every step acts as on a queue. An accepted burst is appended whole and in order, a fetch takes the head, `RESET` empties the
list, and nothing else touches it. -/
def Obligations.BufferRefinesFifoQueue : Prop :=
  (∀ (s t : State) (bytes : List Byte) (rest : List Event), s.inbox = .call bytes :: rest → step s = .next t →
    ∃ i, decode .op bytes = .ok i ∧
      match i with
      | .reset => t.block.live = []
      | .enq _ buffer =>
        (reply i s = .enqueued .ok ∧ t.block.live = s.block.live ++ samplesOf buffer) ∨
          (reply i s ≠ .enqueued .ok ∧ t.block.live = s.block.live)
      | .deq =>
        (s.block.live = [] ∧ t.block.live = [] ∧ reply i s = .dequeued none) ∨
          ∃ x, s.block.live = x :: t.block.live ∧ reply i s = .dequeued (some x)
      | .tick => t.block.live = if s.block.phase = .due then s.block.live.tail else s.block.live
      | _ => t.block.live = s.block.live) ∧
  (∀ (s t : State) (rest : List Event) (k : Fin 4), s.inbox = .startupEnq k :: rest → step s = .next t →
    t.block.live = if s.block.freeCapacity ≤ 2 then s.block.live else s.block.live ++ repetition k) ∧
  (∀ (s t : State) (rest : List Event), s.inbox = .usec :: rest → step s = .next t → t.block.live = s.block.live)

/-! ### The Playback Scheduler -/

/-- 41_playback_scheduler R71: branch 1 adds one to `elapsed` and does nothing else. -/
def Obligations.TickWhileSounding : Prop :=
  ∀ s : State, s.block.elapsed.toNat < s.block.activeDuration.toNat →
    exec .tick s = .next { s with
      block := { s.block with elapsed := BitVec.ofNat 32 (s.block.elapsed.toNat + 1) } }

/-- 41_playback_scheduler section 1, branch 2: disable the generator and count on. -/
def Obligations.TickInGap : Prop :=
  ∀ s : State, s.block.activeDuration.toNat ≤ 65535 → s.block.activeDuration.toNat ≤ s.block.elapsed.toNat →
    s.block.elapsed.toNat ≤ s.block.activeDuration.toNat + 5 →
    exec .tick s = .next { s with
      block := { s.block with
        elapsed := BitVec.ofNat 32 (s.block.elapsed.toNat + 1)
        genEn := false
        halTrace := s.block.halTrace ++ [.disablePeriodicInterrupt] } }

/-- 41_playback_scheduler R73: branch 3 with an empty queue goes to the idle pair. -/
def Obligations.TickFindsQueueEmpty : Prop :=
  ∀ s : State, s.block.activeDuration.toNat ≤ 65535 → s.block.activeDuration.toNat + 5 < s.block.elapsed.toNat →
    s.block.writePos = s.block.readPos →
    exec .tick s = .next { s with
      block := { s.block with
        elapsed := 0#32
        activeDuration := 0#32
        genEn := false
        halTrace := s.block.halTrace ++ [.disablePeriodicInterrupt] } }

/-- 41_playback_scheduler R74: branch 3 with a sample configures the generator for its frequency, loads its duration,
restarts the count and consumes that one sample. -/
def Obligations.TickFetchesSample : Prop :=
  ∀ (s : State) (x : Sample), s.block.activeDuration.toNat ≤ 65535 →
    s.block.activeDuration.toNat + 5 < s.block.elapsed.toNat →
    s.block.writePos ≠ s.block.readPos → s.block.mem.read s.block.readPos = x →
    exec .tick s = .next { s with
      block :=
        if x.freq = 0#16 then
          { s.block with
            readPos := s.block.readPos + 1#5
            elapsed := 0#32
            activeDuration := BitVec.ofNat 32 x.dur.toNat
            genEn := false
            halTrace := s.block.halTrace ++ [.disablePeriodicInterrupt] }
        else
          { s.block with
            readPos := s.block.readPos + 1#5
            elapsed := 0#32
            activeDuration := BitVec.ofNat 32 x.dur.toNat
            genEn := true
            genPeriod := BitVec.ofNat 32 (1000000 / min x.freq.toNat 10000 / 2)
            genCnt := 0#32
            halTrace := s.block.halTrace ++
              [.configurePeriodicSource (BitVec.ofNat 32 (1000000 / min x.freq.toNat 10000 / 2)),
                .enablePeriodicInterrupt] } }

/-- 41_playback_scheduler section 3, the timeline of one sample (R78, derived there): after the tick that fetched a sample of
duration `d`, the `n`-th tick finds the count at `n`; the generator stays as it was up to tick `d` and is disabled at each of
the six ticks from `d + 1` to `d + 6`; no other register moves and no sample is fetched. -/
def Obligations.SampleTimeline : Prop :=
  ∀ (s : State) (n d : Nat) (rest : List Event), s.inbox = List.replicate n (.call [0x03#8]) ++ rest → 0 < n →
    n ≤ d + 6 → d ≤ 65535 → s.reader ≠ .harness → s.block.elapsed = 0#32 →
    s.block.activeDuration = BitVec.ofNat 32 d →
    runSteps n s = .next { s with
      inbox := rest
      reader := .scheduler
      block := { s.block with
        elapsed := BitVec.ofNat 32 n
        genEn := if n ≤ d then s.block.genEn else false
        halTrace := s.block.halTrace ++ List.replicate (n - d) .disablePeriodicInterrupt } }

/-- 41_playback_scheduler section 3, the idle cycle (R79, derived there): while the queue stays empty, seven ticks from the
pair (0, 0) lead back to it, and so `7 * m` ticks, each disabling the generator; nothing else moves. -/
def Obligations.IdleCycle : Prop :=
  ∀ (s : State) (m : Nat) (rest : List Event), s.inbox = List.replicate (7 * m) (.call [0x03#8]) ++ rest → 0 < m →
    s.reader ≠ .harness → s.block.elapsed = 0#32 → s.block.activeDuration = 0#32 →
    s.block.writePos = s.block.readPos →
    runSteps (7 * m) s = .next { s with
      inbox := rest
      reader := .scheduler
      block := { s.block with
        genEn := false
        halTrace := s.block.halTrace ++ List.replicate (7 * m) .disablePeriodicInterrupt } }

/-- 41_playback_scheduler section 3, the start latency (R79, derived there): with a sample queued and the idle count at `e`,
no tick before the `(7 - e)`-th fetches it, and that one does. -/
def Obligations.StartLatency : Prop :=
  ∀ (s : State) (e n : Nat) (rest : List Event), s.inbox = List.replicate n (.call [0x03#8]) ++ rest →
    s.reader ≠ .harness → e ≤ 6 → s.block.elapsed = BitVec.ofNat 32 e → s.block.activeDuration = 0#32 →
    s.block.writePos ≠ s.block.readPos →
    (n < 7 - e → ∃ t, runSteps n s = .next t ∧ t.inbox = rest ∧ t.block.readPos = s.block.readPos ∧
      t.block.elapsed = BitVec.ofNat 32 (e + n) ∧ t.block.activeDuration = 0#32) ∧
    (n = 7 - e → ∃ t, runSteps n s = .next t ∧ t.inbox = rest ∧
      t.block.readPos = s.block.readPos + 1#5 ∧ t.block.elapsed = 0#32 ∧
      t.block.activeDuration = BitVec.ofNat 32 (s.block.mem.read s.block.readPos).dur.toNat)

/-- 41_playback_scheduler section 1, rests (R74, R76): a fetched `REST` disables the generator while its duration runs; the
line, the period and the counter stay as they are. -/
def Obligations.RestEffect : Prop :=
  ∀ (dur : Half) (s : State), exec (.rest dur) s = .next { s with
    block := { s.block with
      elapsed := 0#32
      activeDuration := BitVec.ofNat 32 dur.toNat
      genEn := false
      halTrace := s.block.halTrace ++ [.disablePeriodicInterrupt] } }

/-- 41_playback_scheduler section 1 and 42_square_wave_generator section 1: a fetched `NOTE` configures the generator while its
duration runs; the line stays as it is. -/
def Obligations.NoteEffect : Prop :=
  ∀ (freq dur : Half) (s : State), freq ≠ 0#16 → exec (.note freq dur) s = .next { s with
    block := { s.block with
      elapsed := 0#32
      activeDuration := BitVec.ofNat 32 dur.toNat
      genEn := true
      genPeriod := BitVec.ofNat 32 (1000000 / min freq.toNat 10000 / 2)
      genCnt := 0#32
      halTrace := s.block.halTrace ++
        [.configurePeriodicSource (BitVec.ofNat 32 (1000000 / min freq.toNat 10000 / 2)), .enablePeriodicInterrupt] } }

/-! ### The Square-Wave Generator -/

/-- 42_square_wave_generator R80: `CFG(0)` disables the periodic interrupt; the line keeps its level, the period and the
counter their values. -/
def Obligations.CfgZeroDisables : Prop :=
  ∀ s : State, exec (.cfg 0#16) s = .next { s with
    block := { s.block with
      genEn := false
      halTrace := s.block.halTrace ++ [.disablePeriodicInterrupt] } }

/-- 42_square_wave_generator R81: `CFG(f)`, f not 0, resets the counter, programs the period of the clamped frequency and
enables the interrupt; the corner values of the rule. -/
def Obligations.CfgProgramsPeriod : Prop :=
  (∀ (f : Half) (s : State), f ≠ 0#16 → exec (.cfg f) s = .next { s with
    block := { s.block with
      genCnt := 0#32
      genPeriod := BitVec.ofNat 32 (1000000 / min f.toNat 10000 / 2)
      genEn := true
      halTrace := s.block.halTrace ++
        [.configurePeriodicSource (BitVec.ofNat 32 (1000000 / min f.toNat 10000 / 2)), .enablePeriodicInterrupt] } }) ∧
  (∀ (f : Half) (s t : State), exec (.cfg f) s = .next t →
    (f = 1#16 → t.block.genPeriod = 500000#32) ∧
    (10000 ≤ f.toNat → t.block.genPeriod = 50#32) ∧
    (4951 ≤ f.toNat → f.toNat ≤ 5000 → t.block.genPeriod = 100#32) ∧
    (5001 ≤ f.toNat → f.toNat ≤ 5050 → t.block.genPeriod = 99#32) ∧
    (f = 440#16 → t.block.genPeriod = 1136#32 ∧ t.block.genCnt = 0#32 ∧ t.block.genEn = true))

/-- 42_square_wave_generator section 1 (R83 and R84, derived there; the rounding is the spec's decision D11): every period
programmed lies in 50..500000, and the two divisions give what one division by `2 * fc` gives. -/
def Obligations.PeriodRange : Prop :=
  ∀ (f : Half) (s t : State), f ≠ 0#16 → exec (.cfg f) s = .next t →
    50 ≤ t.block.genPeriod.toNat ∧ t.block.genPeriod.toNat ≤ 500000 ∧
    t.block.genPeriod.toNat = 1000000 / (2 * min f.toNat 10000)

/-- 42_square_wave_generator R89: from 10000 Hz up every frequency is configured as 10000 Hz; no stored sample is altered and no
period is shorter than 50. -/
def Obligations.ClampAtCeiling : Prop :=
  (∀ (f : Half) (s : State), 10000 ≤ f.toNat → exec (.cfg f) s = exec (.cfg 10000#16) s) ∧
  (∀ (f : Half) (s t : State), exec (.cfg f) s = .next t → t.block.mem = s.block.mem) ∧
  (∀ (f : Half) (s t : State), f ≠ 0#16 → exec (.cfg f) s = .next t → 50 ≤ t.block.genPeriod.toNat)

/-- 42_square_wave_generator R82: `GENOFF` clears `GEN_EN` and nothing else, does so again harmlessly, has the effect of
`CFG(0)`, and leaves no `FIRE` until the generator is configured again. -/
def Obligations.GenoffDisables : Prop :=
  ∀ s : State, ∃ t, exec .genoff s = .next t ∧
    t = { s with
      block := { s.block with
        genEn := false
        halTrace := s.block.halTrace ++ [.disablePeriodicInterrupt] } } ∧
    exec .genoff t = .next { t with
      block := { t.block with halTrace := t.block.halTrace ++ [.disablePeriodicInterrupt] } } ∧
    exec .genoff s = exec (.cfg 0#16) s ∧
    exec .fire t = .refused .fireWhileDisabled

/-- 42_square_wave_generator section 3 (that a firing is one step, and none while disabled, is the spec's decision D14): `FIRE`
toggles the line and nothing else, two of them restore it, and with `GEN_EN = 0` there is no such step. -/
def Obligations.FireTogglesLine : Prop :=
  ∀ s : State,
    (s.block.genEn = true → exec .fire s = .next { s with
      block := { s.block with out := !s.block.out, halTrace := s.block.halTrace ++ [.toggleOutput] } }) ∧
    (∀ t u, exec .fire s = .next t → exec .fire t = .next u → u.block.out = s.block.out) ∧
    (s.block.genEn = false → exec .fire s = .refused .fireWhileDisabled)

/-- 42_square_wave_generator section 3, the paragraph at R86: a `FIRE` commutes with every `FREECAP` and `ENQ`, and in a
reachable state with every `TICK` that leaves the generator enabled. -/
def Obligations.FireCommutes : Prop :=
  ∀ (s t u : State) (i : Instr),
    (i = .freecap ∨ (∃ length buffer, i = .enq length buffer) ∨
      i = .tick ∧ s.block.Inv ∧ ∀ v, exec .tick s = .next v → v.block.genEn = true) →
    exec .fire s = .next t → exec i t = .next u →
    ∃ t' u', exec i s = .next t' ∧ exec .fire t' = .next u' ∧ u'.block = u.block

/-- 42_square_wave_generator section 4, the timed refinement (R88, the spec's decision D16): `n` units of the timing base after
a configuration the line has toggled `n div GEN_PERIOD` times; while the generator is disabled a unit changes nothing. -/
def Obligations.TogglesPerTimebaseUnits : Prop :=
  (∀ (s : State) (n : Nat) (rest : List Event), s.inbox = List.replicate n .usec ++ rest →
    s.block.genEn = true → s.block.genCnt = 0#32 → 0 < s.block.genPeriod.toNat →
    runSteps n s = .next { s with
      inbox := rest
      block := { s.block with
        genCnt := BitVec.ofNat 32 (n % s.block.genPeriod.toNat)
        out := if n / s.block.genPeriod.toNat % 2 = 0 then s.block.out else !s.block.out
        halTrace := s.block.halTrace ++ List.replicate (n / s.block.genPeriod.toNat) .toggleOutput } }) ∧
  (∀ (s : State) (rest : List Event), s.inbox = .usec :: rest → s.block.genEn = false →
    step s = .next { s with inbox := rest })

/-- 42_square_wave_generator section 4, the timed refinement (R88, the spec's decision D16): from the fetch of a note of
duration `d`, with a tick after every 1000 units, the generator is enabled for `(d + 1) * 1000` units and toggles the line
`((d + 1) * 1000) div GEN_PERIOD` times; and those events are a schedule of the refinement. -/
def Obligations.NoteTogglesInTimedRefinement : Prop :=
  ∀ (s : State) (d : Nat) (rest : List Event),
    s.inbox = (List.replicate (d + 1) (List.replicate 1000 Event.usec ++ [.call [0x03#8]])).flatten ++ rest →
    d ≤ 65535 → s.reader ≠ .harness → s.block.elapsed = 0#32 → s.block.activeDuration = BitVec.ofNat 32 d →
    s.block.genEn = true → s.block.genCnt = 0#32 → 0 < s.block.genPeriod.toNat →
    (∃ t, runSteps ((d + 1) * 1001) s = .next t ∧ t.inbox = rest ∧ t.block.genEn = false ∧
      t.block.halTrace = s.block.halTrace ++
        List.replicate ((d + 1) * 1000 / s.block.genPeriod.toNat) .toggleOutput ++ [.disablePeriodicInterrupt] ∧
      t.block.out = if (d + 1) * 1000 / s.block.genPeriod.toNat % 2 = 0 then s.block.out else !s.block.out) ∧
    (rest = [] → timedSchedule 1000 s.inbox = true)

/-! ### The Startup Sequencer -/

/-- 43_startup_sequencer, the paragraphs at R90 and R91: `STARTUP rev` expands into as many calls for field position `k` as
the field's value says, the most significant field first; it changes nothing of the block itself. That the calls go among the
events to come, at once where the environment leaves the producer no place, is the model's choice (assumption 7). -/
def Obligations.StartupExpandsFields : Prop :=
  ∀ (rev : Byte) (s : State) (calls : List (Fin 4)),
    calls = List.replicate (rev.toNat / 64) 0 ++ (List.replicate (rev.toNat / 16 % 4) 1 ++
      (List.replicate (rev.toNat / 4 % 4) 2 ++ List.replicate (rev.toNat % 4) 3)) →
    exec (.startup rev) s = .next { s with inbox := scheduleCalls calls s.inbox } ∧
    (.startupTurn ∉ s.inbox → exec (.startup rev) s = .next { s with inbox := calls.map .startupEnq ++ s.inbox })

/-- 43_startup_sequencer, the paragraph at R93 (derived there): if the calls a `STARTUP` has yet to make all fit, they still
fit after any step, whichever agent takes it. -/
def Obligations.StartupKeepsFitting : Prop :=
  ∀ s t : State, s.StartupFits → pendingCalls s.inbox ≠ [] → step s = .next t → t.StartupFits

/-- 43_startup_sequencer, the paragraphs at R91 and R93 (derived there): calls that all fit are all accepted; taken one after
the other they append, for each position in turn, the 150 ms tone and the 15 ms silence, write no other slot, and move nothing
else but `write_pos`. -/
def Obligations.StartupCallsAllAccepted : Prop :=
  ∀ (s : State) (calls : List (Fin 4)) (rest : List Event), s.inbox = calls.map .startupEnq ++ rest →
    s.block.occupancy + 2 * calls.length ≤ 30 →
    ∃ m, runSteps calls.length s = .next { s with
        inbox := rest
        block := { s.block with
          mem := m
          writePos := s.block.writePos + BitVec.ofNat 5 (2 * calls.length) } } ∧
      ({ s.block with
          mem := m
          writePos := s.block.writePos + BitVec.ofNat 5 (2 * calls.length) } : Block).live =
        s.block.live ++ calls.flatMap repetition ∧
      (∀ j : SlotIx, (∀ i < 2 * calls.length, j ≠ s.block.writePos + BitVec.ofNat 5 i) →
        m.read j = s.block.mem.read j)

/-! ### What holds of every reachable state -/

/-- 10_state sections 6 and 7: the invariant holds after reset. -/
def Obligations.ResetMeetsInvariant : Prop := State.reset.block.Inv

/-- 10_state section 7 (R26, derived there): every step keeps the invariant, from every state that meets it. -/
def Obligations.StepKeepsInvariant : Prop :=
  ∀ s t : State, s.block.Inv → step s = .next t → t.block.Inv

/-- 40_tone_queue, the paragraph at R66 (derived there): at most 30 samples queued, and a free capacity of 1 to 31. -/
def Obligations.QueueBounds : Prop :=
  ∀ b : Block, b.Inv → b.live.length = b.occupancy ∧ b.occupancy ≤ 30 ∧ 1 ≤ b.freeCapacity ∧ b.freeCapacity ≤ 31

/-- 41_playback_scheduler section 3 (R77, derived there): the generator is off at the start of every branch-3 tick, so `CFG`
always starts from a disabled generator. -/
def Obligations.GeneratorOffAtFetch : Prop :=
  ∀ b : Block, b.Inv → b.phase = .due → b.genEn = false ∧ b.elapsed.toNat = b.activeDuration.toNat + 6

/-- 10_state, the table at R20: after reset the mirror registers are what the HAL trace says. -/
def Obligations.ResetMirrorsMatchTrace : Prop :=
  State.reset.block.mirrors = Mirrors.ofTrace State.reset.block.halTrace

/-- 10_state, the table at R20: every step keeps the mirror registers `GEN_EN`, `GEN_PERIOD` and `OUT` equal to what the HAL
calls made since reset leave them at: nothing but a HAL call moves one. -/
def Obligations.StepKeepsMirrorsMatched : Prop :=
  ∀ s t : State, s.block.mirrors = Mirrors.ofTrace s.block.halTrace → step s = .next t →
    t.block.mirrors = Mirrors.ofTrace t.block.halTrace

/-- 10_state, the table at R10 and the paragraph at R20: the HAL trace only grows, but for a `RESET`. -/
def Obligations.HalTraceOnlyGrows : Prop :=
  ∀ (s t : State) (e : Event) (rest : List Event), s.inbox = e :: rest → step s = .next t →
    (∃ calls, t.block.halTrace = s.block.halTrace ++ calls) ∨
      ∃ bytes, e = .call bytes ∧ decode .op bytes = .ok .reset

/-- 10_state section 5, the paragraph at R22: each register has one writing agent besides `RESET`. The producer alone writes
`Q` and `write_pos`; the tick context alone (with the test harness's `DEQ` of 30_encoding R52) `read_pos`, `elapsed`,
`active_duration` and the generator registers; the periodic interrupt alone the line. -/
def Obligations.RegistersHaveOneWriter : Prop :=
  ∀ (i : Instr) (s t : State), exec i s = .next t →
    (t.block.mem ≠ s.block.mem → ∃ length buffer, i = .enq length buffer) ∧
    (t.block.writePos ≠ s.block.writePos → i = .reset ∨ ∃ length buffer, i = .enq length buffer) ∧
    (t.block.readPos ≠ s.block.readPos → i = .reset ∨ i = .tick ∨ i = .deq) ∧
    (t.block.elapsed ≠ s.block.elapsed ∨ t.block.activeDuration ≠ s.block.activeDuration →
      i = .reset ∨ i = .tick ∨ (∃ dur, i = .rest dur) ∨ ∃ freq dur, i = .note freq dur) ∧
    (t.block.genEn ≠ s.block.genEn ∨ t.block.genPeriod ≠ s.block.genPeriod ∨ t.block.genCnt ≠ s.block.genCnt →
      i = .reset ∨ i = .tick ∨ i = .genoff ∨ (∃ f, i = .cfg f) ∨ (∃ dur, i = .rest dur) ∨
        ∃ freq dur, i = .note freq dur) ∧
    (t.block.out ≠ s.block.out → i = .reset ∨ i = .fire)

/-! ### Reset and the calls of a `STARTUP` -/

/-- 70_reset_and_hazards section 1, the paragraph at R123: nothing survives a `RESET` except the slots. Two states with the same
slots and the same events to come, but for the calls of a `STARTUP`, are one state after it, and after it no operation that
can be invoked from outside is turned away. The events are the model's field (assumption 1). -/
def Obligations.NothingSurvivesReset : Prop :=
  (∀ s u t v : State, exec .reset s = .next t → exec .reset u = .next v → s.block.mem = u.block.mem →
    withoutCalls s.inbox = withoutCalls u.inbox → t = v) ∧
  (∀ (s t : State) (i : Instr), exec .reset s = .next t → i.format = .op → i ≠ .genoff → (∀ f, i ≠ .cfg f) →
    t.turnedAway i = none)

/-- 43_startup_sequencer, the paragraph at R94: steps of the other agents may fall between the calls of a `STARTUP`. Wherever
the environment leaves its places, the calls come in order and the other events in theirs, and every interleaving of the calls
with other events comes from some places. The places are the model's (assumption 7). -/
def Obligations.StartupCallsInterleave : Prop :=
  (∀ (calls : List (Fin 4)) (es : List Event), pendingCalls es = [] →
    pendingCalls (scheduleCalls calls es) = calls ∧
    (withoutCalls (scheduleCalls calls es)).filter (· ≠ .startupTurn) = es.filter (· ≠ .startupTurn)) ∧
  (∀ es : List Event, .startupTurn ∉ es → scheduleCalls (pendingCalls es) (es.map Event.asTurn) = es)
end

