-- ==== Sys2Proof/Laws/Encoding.lean ====
section
/-! SUPPORT. The byte order in plain arithmetic, and the fields of a word read back from its bytes. -/

namespace Sys2Proof

theorem halfOfBytes_toNat (lo hi : Byte) : (halfOfBytes lo hi).toNat = lo.toNat + 256 * hi.toNat := by
  have := lo.isLt
  have := hi.isLt
  simp only [halfOfBytes, BitVec.toNat_append]
  rw [Nat.shiftLeft_eq, Nat.mul_comm, ← Nat.two_pow_add_eq_or_of_lt (i := 8) (by omega)]
  omega

theorem wordOfBytes_toNat (b0 b1 b2 b3 : Byte) :
    (wordOfBytes b0 b1 b2 b3).toNat = b0.toNat + 256 * b1.toNat + 65536 * b2.toNat + 16777216 * b3.toNat := by
  have := b0.isLt
  have := b1.isLt
  have := b2.isLt
  have := b3.isLt
  have h1 := halfOfBytes_toNat b0 b1
  have h2 := halfOfBytes_toNat b2 b3
  simp only [wordOfBytes, BitVec.toNat_append, h1, h2]
  rw [Nat.shiftLeft_eq, Nat.mul_comm, ← Nat.two_pow_add_eq_or_of_lt (i := 16) (by omega)]
  omega

/-- A 16-bit field is made again from its two bytes. -/
theorem halfOfBytes_bytes (h : Half) : halfOfBytes (h.extractLsb' 0 8) (h.extractLsb' 8 8) = h := by
  apply BitVec.eq_of_toNat_eq
  rw [halfOfBytes_toNat]
  have := h.isLt
  simp [BitVec.extractLsb'_toNat, Nat.shiftRight_eq_div_pow]
  omega

/-- A 32-bit number is made again from its four bytes. -/
theorem wordOfBytes_bytes (w : Word) :
    wordOfBytes (w.extractLsb' 0 8) (w.extractLsb' 8 8) (w.extractLsb' 16 8) (w.extractLsb' 24 8) = w := by
  apply BitVec.eq_of_toNat_eq
  rw [wordOfBytes_toNat]
  have := w.isLt
  simp [BitVec.extractLsb'_toNat, Nat.shiftRight_eq_div_pow]
  omega

@[simp] theorem halfOfBytes_low (lo hi : Byte) : (halfOfBytes lo hi).extractLsb' 0 8 = lo := by
  apply BitVec.eq_of_toNat_eq
  have := lo.isLt
  simp [BitVec.extractLsb'_toNat, halfOfBytes_toNat]
  omega

@[simp] theorem halfOfBytes_high (lo hi : Byte) : (halfOfBytes lo hi).extractLsb' 8 8 = hi := by
  apply BitVec.eq_of_toNat_eq
  have := lo.isLt
  have := hi.isLt
  simp [BitVec.extractLsb'_toNat, Nat.shiftRight_eq_div_pow, halfOfBytes_toNat]
  omega

/-- A sample is made again from its four bytes (30_encoding R47). -/
theorem sampleOfBytes_bytes (s : Sample) :
    sampleOfBytes (s.freq.extractLsb' 0 8) (s.freq.extractLsb' 8 8) (s.dur.extractLsb' 0 8) (s.dur.extractLsb' 8 8) = s := by
  simp [sampleOfBytes, halfOfBytes_bytes]

end Sys2Proof
end

