-- ==== Sys2Proof/Laws/Memory.lean ====
section
/-! SUPPORT. The laws of the sample buffer: a read after a write, and the canonical form that every operation keeps. -/

namespace Sys2Proof.Machine

theorem Memory.lookup_insert (m : Memory) (i j : Nat) (x : Sample) :
    Memory.lookup (Memory.insert m i x) j = if j = i then some x else Memory.lookup m j := by
  induction m with
  | nil => simp [Memory.insert, Memory.lookup]
  | cons e rest ih =>
    obtain ⟨k, y⟩ := e
    simp only [Memory.insert]
    split
    · simp [Memory.lookup]
    · split
      · subst i
        simp only [Memory.lookup]
        split <;> rfl
      · simp only [Memory.lookup, ih]
        by_cases hjk : j = k
        · subst j
          have : k ≠ i := fun h => by omega
          simp [this]
        · simp [hjk]

@[simp] theorem Memory.read_write_same (m : Memory) (i : SlotIx) (x : Sample) : (m.write i x).read i = x := by
  simp [Memory.read, Memory.write, Memory.lookup_insert]

theorem Memory.read_write_other (m : Memory) {i j : SlotIx} (x : Sample) (h : j ≠ i) :
    (m.write i x).read j = m.read j := by
  have : j.toNat ≠ i.toNat := fun e => h (BitVec.eq_of_toNat_eq e)
  simp [Memory.read, Memory.write, Memory.lookup_insert, this]

theorem Memory.risingFrom_cons (lo j : Nat) (x : Sample) (rest : Memory) :
    Memory.risingFrom lo ((j, x) :: rest) = true ↔ lo ≤ j ∧ j < 32 ∧ Memory.risingFrom (j + 1) rest = true := by
  simp [Memory.risingFrom, Config.slots, and_assoc]

theorem Memory.risingFrom_insert {lo i : Nat} (m : Memory) (x : Sample) (h : Memory.risingFrom lo m = true)
    (hlo : lo ≤ i) (hi : i < 32) : Memory.risingFrom lo (Memory.insert m i x) = true := by
  induction m generalizing lo with
  | nil => exact (Memory.risingFrom_cons _ _ _ _).mpr ⟨hlo, hi, rfl⟩
  | cons e rest ih =>
    obtain ⟨k, y⟩ := e
    obtain ⟨h1, h2, h3⟩ := (Memory.risingFrom_cons _ _ _ _).mp h
    simp only [Memory.insert]
    split
    · exact (Memory.risingFrom_cons _ _ _ _).mpr ⟨hlo, hi, (Memory.risingFrom_cons _ _ _ _).mpr ⟨by omega, h2, h3⟩⟩
    · split
      · subst i
        exact (Memory.risingFrom_cons _ _ _ _).mpr ⟨hlo, hi, h3⟩
      · exact (Memory.risingFrom_cons _ _ _ _).mpr ⟨h1, h2, ih h3 (by omega)⟩

/-- A write keeps the canonical form. -/
theorem Memory.wf_write {m : Memory} (i : SlotIx) (x : Sample) (h : m.wf = true) : (m.write i x).wf = true :=
  Memory.risingFrom_insert m x h (Nat.zero_le _) i.isLt

/-- A burst keeps the canonical form. -/
theorem Memory.wf_writeBurst {m : Memory} (i : SlotIx) (xs : List Sample) (h : m.wf = true) :
    (m.writeBurst i xs).wf = true := by
  induction xs generalizing m i with
  | nil => exact h
  | cons x rest ih => exact ih _ (Memory.wf_write i x h)

theorem Memory.wf_reset : State.reset.block.mem.wf = true := by decide

/-- The distance from slot `i` forward to slot `j`, around the end of the index space. -/
def Memory.distance (i j : SlotIx) : Nat := (j - i).toNat

theorem Memory.distance_succ (i j : SlotIx) (h : j ≠ i) :
    Memory.distance i j = Memory.distance (i + 1#5) j + 1 := by
  have : j.toNat ≠ i.toNat := fun e => h (BitVec.eq_of_toNat_eq e)
  have hi := i.isLt
  have hj := j.isLt
  simp only [Memory.distance, BitVec.toNat_sub, BitVec.toNat_add, BitVec.toNat_ofNat]
  omega

/-- What a slot has had written to it after a burst of at most 32 samples from slot `i` on: the burst's own sample where
the burst reaches, and what it had before elsewhere. -/
theorem Memory.lookup_writeBurst (m : Memory) (i j : SlotIx) (xs : List Sample) (hlen : xs.length ≤ 32) :
    Memory.lookup (m.writeBurst i xs) j.toNat =
      if h : Memory.distance i j < xs.length then some xs[Memory.distance i j] else Memory.lookup m j.toNat := by
  induction xs generalizing m i with
  | nil => simp [Memory.writeBurst]
  | cons x rest ih =>
    have hr : rest.length ≤ 31 := by simp at hlen; omega
    rw [Memory.writeBurst, ih _ _ (by omega)]
    by_cases hj : j = i
    · subst hj
      have h0 : Memory.distance j j = 0 := by simp [Memory.distance]
      have h1 : Memory.distance (j + 1#5) j = 31 := by
        have hj := j.isLt
        simp only [Memory.distance, BitVec.toNat_sub, BitVec.toNat_add, BitVec.toNat_ofNat]
        omega
      simp [h0, h1, Memory.write, Memory.lookup_insert, Nat.not_lt.mpr hr]
    · have hd := Memory.distance_succ i j hj
      have hne : j.toNat ≠ i.toNat := fun e => hj (BitVec.eq_of_toNat_eq e)
      simp only [hd, List.length_cons, Nat.add_lt_add_iff_right, List.getElem_cons_succ, Memory.write,
        Memory.lookup_insert, hne, if_false]

/-- What a slot reads as after a burst (the same, through the model's read of one slot). -/
theorem Memory.read_writeBurst (m : Memory) (i j : SlotIx) (xs : List Sample) (hlen : xs.length ≤ 32) :
    (m.writeBurst i xs).read j =
      if h : Memory.distance i j < xs.length then xs[Memory.distance i j] else m.read j := by
  unfold Memory.read
  rw [Memory.lookup_writeBurst m i j xs hlen]
  split <;> simp

end Sys2Proof.Machine
end

