-- ==== Sys2Proof/Laws/PerInstr.lean ====
section
/-! SUPPORT. Statements made once per instruction: how many bytes the encoder gives it. -/

namespace Sys2Proof.Laws.EncodedSize

/-- How many bytes an instruction takes: one for the selector and one for each operand byte, or four for a sample. -/
def size : Instr → Nat
  | .reset => 1
  | .freecap => 1
  | .enq length _ => 5 + length.toNat
  | .tick => 1
  | .startup _ => 2
  | .fire => 1
  | .deq => 1
  | .cfg _ => 3
  | .genoff => 1
  | .rest _ => 4
  | .note _ _ => 4

/-- A well-formed instruction is encoded in as many bytes as its row and its operands take. -/
def Statement (i : Instr) : Prop := i.wellFormed = true → (encode i).length = size i

theorem reset : Statement .reset := fun _ => rfl
theorem freecap : Statement .freecap := fun _ => rfl
theorem enq (length : Word) (buffer : List Byte) : Statement (.enq length buffer) := fun h => by
  simp only [Instr.wellFormed, beq_iff_eq] at h
  simp [encode, size, bytesOfWord, h]
  omega
theorem tick : Statement .tick := fun _ => rfl
theorem startup (rev : Byte) : Statement (.startup rev) := fun _ => rfl
theorem fire : Statement .fire := fun _ => rfl
theorem deq : Statement .deq := fun _ => rfl
theorem cfg (f : Half) : Statement (.cfg f) := fun _ => rfl
theorem genoff : Statement .genoff := fun _ => rfl
theorem rest (dur : Half) : Statement (.rest dur) := fun _ => rfl
theorem note (freq dur : Half) : Statement (.note freq dur) := fun _ => rfl

end Sys2Proof.Laws.EncodedSize
end

