-- ==== Sys2Proof/Laws/State.lean ====
section
/-! SUPPORT. The small lemmas of the state's updates: one per field per named update, each true by rfl. -/

namespace Sys2Proof.Machine

/-! ### Answering -/

theorem State.answer_def (s : State) (b : Block) : s.answer b = .next { s with block := b } := rfl

@[simp] theorem State.answer_block (s : State) : s.answer s.block = .next s := rfl

@[simp] theorem Block.reject_fst (b : Block) (why : EnqResult) : (b.reject why).1 = why := rfl

@[simp] theorem Block.reject_snd (b : Block) (why : EnqResult) : (b.reject why).2 = b := rfl

/-! ### The generator switched off -/

@[simp] theorem Block.generatorOff_mem (b : Block) : b.generatorOff.mem = b.mem := rfl
@[simp] theorem Block.generatorOff_writePos (b : Block) : b.generatorOff.writePos = b.writePos := rfl
@[simp] theorem Block.generatorOff_readPos (b : Block) : b.generatorOff.readPos = b.readPos := rfl
@[simp] theorem Block.generatorOff_elapsed (b : Block) : b.generatorOff.elapsed = b.elapsed := rfl
@[simp] theorem Block.generatorOff_activeDuration (b : Block) : b.generatorOff.activeDuration = b.activeDuration := rfl
@[simp] theorem Block.generatorOff_genEn (b : Block) : b.generatorOff.genEn = false := rfl
@[simp] theorem Block.generatorOff_genPeriod (b : Block) : b.generatorOff.genPeriod = b.genPeriod := rfl
@[simp] theorem Block.generatorOff_genCnt (b : Block) : b.generatorOff.genCnt = b.genCnt := rfl
@[simp] theorem Block.generatorOff_out (b : Block) : b.generatorOff.out = b.out := rfl
@[simp] theorem Block.generatorOff_halTrace (b : Block) :
    b.generatorOff.halTrace = b.halTrace ++ [.disablePeriodicInterrupt] := rfl

/-! ### The line toggled -/

@[simp] theorem Block.toggle_mem (b : Block) : b.toggle.mem = b.mem := rfl
@[simp] theorem Block.toggle_writePos (b : Block) : b.toggle.writePos = b.writePos := rfl
@[simp] theorem Block.toggle_readPos (b : Block) : b.toggle.readPos = b.readPos := rfl
@[simp] theorem Block.toggle_elapsed (b : Block) : b.toggle.elapsed = b.elapsed := rfl
@[simp] theorem Block.toggle_activeDuration (b : Block) : b.toggle.activeDuration = b.activeDuration := rfl
@[simp] theorem Block.toggle_genEn (b : Block) : b.toggle.genEn = b.genEn := rfl
@[simp] theorem Block.toggle_genPeriod (b : Block) : b.toggle.genPeriod = b.genPeriod := rfl
@[simp] theorem Block.toggle_genCnt (b : Block) : b.toggle.genCnt = b.genCnt := rfl
@[simp] theorem Block.toggle_out (b : Block) : b.toggle.out = !b.out := rfl
@[simp] theorem Block.toggle_halTrace (b : Block) : b.toggle.halTrace = b.halTrace ++ [.toggleOutput] := rfl

/-! ### One tick counted -/

@[simp] theorem Block.countTick_mem (b : Block) : b.countTick.mem = b.mem := rfl
@[simp] theorem Block.countTick_writePos (b : Block) : b.countTick.writePos = b.writePos := rfl
@[simp] theorem Block.countTick_readPos (b : Block) : b.countTick.readPos = b.readPos := rfl
@[simp] theorem Block.countTick_elapsed (b : Block) : b.countTick.elapsed = b.elapsed + 1#32 := rfl
@[simp] theorem Block.countTick_activeDuration (b : Block) : b.countTick.activeDuration = b.activeDuration := rfl
@[simp] theorem Block.countTick_genEn (b : Block) : b.countTick.genEn = b.genEn := rfl
@[simp] theorem Block.countTick_genPeriod (b : Block) : b.countTick.genPeriod = b.genPeriod := rfl
@[simp] theorem Block.countTick_genCnt (b : Block) : b.countTick.genCnt = b.genCnt := rfl
@[simp] theorem Block.countTick_out (b : Block) : b.countTick.out = b.out := rfl
@[simp] theorem Block.countTick_halTrace (b : Block) : b.countTick.halTrace = b.halTrace := rfl

/-! ### The idle pair -/

@[simp] theorem Block.goIdle_mem (b : Block) : b.goIdle.mem = b.mem := rfl
@[simp] theorem Block.goIdle_writePos (b : Block) : b.goIdle.writePos = b.writePos := rfl
@[simp] theorem Block.goIdle_readPos (b : Block) : b.goIdle.readPos = b.readPos := rfl
@[simp] theorem Block.goIdle_elapsed (b : Block) : b.goIdle.elapsed = 0#32 := rfl
@[simp] theorem Block.goIdle_activeDuration (b : Block) : b.goIdle.activeDuration = 0#32 := rfl
@[simp] theorem Block.goIdle_genEn (b : Block) : b.goIdle.genEn = false := rfl
@[simp] theorem Block.goIdle_genPeriod (b : Block) : b.goIdle.genPeriod = b.genPeriod := rfl
@[simp] theorem Block.goIdle_genCnt (b : Block) : b.goIdle.genCnt = b.genCnt := rfl
@[simp] theorem Block.goIdle_out (b : Block) : b.goIdle.out = b.out := rfl
@[simp] theorem Block.goIdle_halTrace (b : Block) : b.goIdle.halTrace = b.halTrace ++ [.disablePeriodicInterrupt] := rfl

/-! ### A sample started -/

@[simp] theorem Block.startSample_elapsed (b : Block) (x : Sample) : (b.startSample x).elapsed = 0#32 := rfl
@[simp] theorem Block.startSample_activeDuration (b : Block) (x : Sample) :
    (b.startSample x).activeDuration = x.dur.setWidth 32 := rfl
@[simp] theorem Block.startSample_mem (b : Block) (x : Sample) : (b.startSample x).mem = (b.configure x.freq).mem := rfl
@[simp] theorem Block.startSample_writePos (b : Block) (x : Sample) :
    (b.startSample x).writePos = (b.configure x.freq).writePos := rfl
@[simp] theorem Block.startSample_readPos (b : Block) (x : Sample) :
    (b.startSample x).readPos = (b.configure x.freq).readPos := rfl
@[simp] theorem Block.startSample_genEn (b : Block) (x : Sample) :
    (b.startSample x).genEn = (b.configure x.freq).genEn := rfl
@[simp] theorem Block.startSample_genPeriod (b : Block) (x : Sample) :
    (b.startSample x).genPeriod = (b.configure x.freq).genPeriod := rfl
@[simp] theorem Block.startSample_genCnt (b : Block) (x : Sample) :
    (b.startSample x).genCnt = (b.configure x.freq).genCnt := rfl
@[simp] theorem Block.startSample_out (b : Block) (x : Sample) : (b.startSample x).out = (b.configure x.freq).out := rfl
@[simp] theorem Block.startSample_halTrace (b : Block) (x : Sample) :
    (b.startSample x).halTrace = (b.configure x.freq).halTrace := rfl

/-! ### A burst stored -/

@[simp] theorem Block.storeBurst_mem (b : Block) (xs : List Sample) :
    (b.storeBurst xs).mem = b.mem.writeBurst b.writePos xs := rfl
@[simp] theorem Block.storeBurst_writePos (b : Block) (xs : List Sample) :
    (b.storeBurst xs).writePos = b.writePos + BitVec.ofNat 5 xs.length := rfl
@[simp] theorem Block.storeBurst_readPos (b : Block) (xs : List Sample) : (b.storeBurst xs).readPos = b.readPos := rfl
@[simp] theorem Block.storeBurst_elapsed (b : Block) (xs : List Sample) : (b.storeBurst xs).elapsed = b.elapsed := rfl
@[simp] theorem Block.storeBurst_activeDuration (b : Block) (xs : List Sample) :
    (b.storeBurst xs).activeDuration = b.activeDuration := rfl
@[simp] theorem Block.storeBurst_genEn (b : Block) (xs : List Sample) : (b.storeBurst xs).genEn = b.genEn := rfl
@[simp] theorem Block.storeBurst_genPeriod (b : Block) (xs : List Sample) :
    (b.storeBurst xs).genPeriod = b.genPeriod := rfl
@[simp] theorem Block.storeBurst_genCnt (b : Block) (xs : List Sample) : (b.storeBurst xs).genCnt = b.genCnt := rfl
@[simp] theorem Block.storeBurst_out (b : Block) (xs : List Sample) : (b.storeBurst xs).out = b.out := rfl
@[simp] theorem Block.storeBurst_halTrace (b : Block) (xs : List Sample) :
    (b.storeBurst xs).halTrace = b.halTrace := rfl

/-! ### The block after `RESET` -/

@[simp] theorem Block.initialise_mem (b : Block) : b.initialise.mem = b.mem := rfl
@[simp] theorem Block.initialise_writePos (b : Block) : b.initialise.writePos = 0#5 := rfl
@[simp] theorem Block.initialise_readPos (b : Block) : b.initialise.readPos = 0#5 := rfl
@[simp] theorem Block.initialise_elapsed (b : Block) : b.initialise.elapsed = 0#32 := rfl
@[simp] theorem Block.initialise_activeDuration (b : Block) : b.initialise.activeDuration = 0#32 := rfl
@[simp] theorem Block.initialise_genEn (b : Block) : b.initialise.genEn = false := rfl
@[simp] theorem Block.initialise_genPeriod (b : Block) : b.initialise.genPeriod = 0#32 := rfl
@[simp] theorem Block.initialise_genCnt (b : Block) : b.initialise.genCnt = 0#32 := rfl
@[simp] theorem Block.initialise_out (b : Block) : b.initialise.out = false := rfl
@[simp] theorem Block.initialise_halTrace (b : Block) :
    b.initialise.halTrace = [.disablePeriodicInterrupt, .setOutput false] := rfl

end Sys2Proof.Machine
end

