-- ==== Sys2Proof/Laws/Queue.lean ====
section
/-! SUPPORT. What the queue's operations can do, said once: the capacity in plain arithmetic, the burst stored, the sample
dequeued, and the list of live samples. -/

namespace Sys2Proof.Machine

theorem Block.occupancy_eq (b : Block) :
    b.occupancy = (b.writePos.toNat + 32 - b.readPos.toNat) % 32 := rfl

theorem Block.freeCapacity_eq (b : Block) :
    b.freeCapacity = 31 - (b.writePos.toNat + 32 - b.readPos.toNat) % 32 := rfl

theorem Block.occupancy_lt (b : Block) : b.occupancy < 32 := Nat.mod_lt _ (by decide)

theorem Block.freeCapacity_add_occupancy (b : Block) : b.freeCapacity + b.occupancy = 31 := by
  have := b.occupancy_lt
  simp only [Block.freeCapacity, Config.slots]
  omega

theorem Block.occupancy_eq_zero (b : Block) : b.occupancy = 0 ↔ b.writePos = b.readPos := by
  have hw := b.writePos.isLt
  have hr := b.readPos.isLt
  rw [Block.occupancy_eq, ← BitVec.toNat_inj]
  omega

theorem malformed_iff (length : Word) : malformed length = true ↔ length.toNat % 4 ≠ 0 := by
  simp [malformed]

theorem Block.full_iff (b : Block) (length : Word) : b.full length = true ↔ b.freeCapacity ≤ length.toNat / 4 :=
  decide_eq_true_iff

/-- What `ENQ` answers, in the order its two checks are made. -/
theorem Block.enqResult_eq (b : Block) (length : Word) :
    b.enqResult length =
      if length.toNat % 4 ≠ 0 then .malformedInput
      else if b.freeCapacity ≤ length.toNat / 4 then .queueFull
      else .ok := by
  simp only [Block.enqResult, malformed_iff, Block.full_iff]

/-- A burst holds a quarter as many samples as bytes. -/
theorem samplesOf_length (bytes : List Byte) : (samplesOf bytes).length = bytes.length / 4 := by
  induction bytes using samplesOf.induct with
  | case1 b0 b1 b2 b3 rest ih => simp only [samplesOf, List.length_cons, ih]; omega
  | case2 bytes h =>
    match bytes, h with
    | [], _ => rfl
    | [_], _ => simp [samplesOf]
    | [_, _], _ => simp [samplesOf]
    | [_, _, _], _ => simp [samplesOf]
    | b0 :: b1 :: b2 :: b3 :: rest, h => exact absurd rfl (h b0 b1 b2 b3 rest)

/-- Sample `i` of a burst is decoded from bytes `4i` to `4i + 3`. -/
theorem samplesOf_getElem (bytes : List Byte) (i : Nat) (h : i < (samplesOf bytes).length) :
    (samplesOf bytes)[i] = sampleOfBytes (bytes.getD (4 * i) 0#8) (bytes.getD (4 * i + 1) 0#8)
      (bytes.getD (4 * i + 2) 0#8) (bytes.getD (4 * i + 3) 0#8) := by
  induction bytes using samplesOf.induct generalizing i with
  | case1 b0 b1 b2 b3 rest ih =>
    cases i with
    | zero => rfl
    | succ i =>
      simp only [samplesOf, List.length_cons, Nat.add_lt_add_iff_right] at h
      simp only [samplesOf, List.getElem_cons_succ, ih i h]
      rfl
  | case2 bytes hne =>
    rw [samplesOf_length] at h
    match bytes, hne with
    | [], _ => simp at h
    | [_], _ => simp at h
    | [_, _], _ => simp at h
    | [_, _, _], _ => simp at h
    | b0 :: b1 :: b2 :: b3 :: rest, hne => exact absurd rfl (hne b0 b1 b2 b3 rest)

/-- The one spec of `ENQ`'s body on a buffer of `length` bytes: it returns what its checks say, and either that is a
rejection and nothing changes, or the length is a multiple of 4, the burst is smaller than the free capacity, and it is
stored. -/
theorem Block.enqueue_cases (b : Block) (length : Word) (buffer : List Byte) (h : buffer.length = length.toNat) :
    (b.enqueue length buffer).1 = b.enqResult length ∧
      ((b.enqResult length ≠ .ok ∧ (b.enqueue length buffer).2 = b) ∨
        (b.enqResult length = .ok ∧ length.toNat % 4 = 0 ∧ (samplesOf buffer).length = length.toNat / 4 ∧
          (samplesOf buffer).length < b.freeCapacity ∧
          (b.enqueue length buffer).2 = b.storeBurst (samplesOf buffer))) := by
  have hr := b.enqResult_eq length
  have hl : (samplesOf buffer).length = length.toNat / 4 := by rw [samplesOf_length, h]
  unfold Block.enqueue
  split <;> rename_i he
  · refine ⟨he.symm, .inr ⟨he, ?_⟩⟩
    rw [he] at hr
    split at hr
    · cases hr
    · split at hr
      · cases hr
      · exact ⟨by omega, hl, by omega, rfl⟩
  · exact ⟨he.symm, .inl ⟨by rw [he]; decide, rfl⟩⟩
  · exact ⟨he.symm, .inl ⟨by rw [he]; decide, rfl⟩⟩

/-- `ENQ` on a buffer of `length` bytes answers, with the block `Block.enqueue` gives. -/
theorem execEnq_eq {length : Word} {buffer : List Byte} (s : State) (h : buffer.length = length.toNat) :
    execEnq length buffer s = .next { s with block := (s.block.enqueue length buffer).2 } := by
  unfold execEnq
  rw [if_pos h]
  rfl

/-- `ENQ` on a buffer of `length` bytes returns what its checks say. -/
theorem reply_enq {length : Word} {buffer : List Byte} (s : State) (h : buffer.length = length.toNat) :
    reply (.enq length buffer) s = .enqueued (s.block.enqResult length) := by
  rw [reply, (s.block.enqueue_cases length buffer h).1]

/-- `DEQ` returns what its body gives. -/
@[simp] theorem reply_deq (s : State) : reply .deq s = .dequeued s.block.dequeue.1 := rfl

@[simp] theorem reply_freecap (s : State) : reply .freecap s = .freeCapacity (BitVec.ofNat 5 s.block.freeCapacity) := rfl

/-- If `ENQ` answers, its buffer holds `length` bytes, and either it changed nothing, or a burst smaller than the free
capacity is stored. -/
theorem execEnq_cases {length : Word} {buffer : List Byte} {s t : State} (h : execEnq length buffer s = .next t) :
    buffer.length = length.toNat ∧
      ((s.block.enqResult length ≠ .ok ∧ t = s) ∨
        (s.block.enqResult length = .ok ∧ length.toNat % 4 = 0 ∧ (samplesOf buffer).length = length.toNat / 4 ∧
          (samplesOf buffer).length < s.block.freeCapacity ∧
          t = { s with block := s.block.storeBurst (samplesOf buffer) })) := by
  by_cases hlen : buffer.length = length.toNat
  · rw [execEnq_eq s hlen] at h
    cases h
    obtain ⟨_, ⟨hr, hb⟩ | ⟨hr, h4, hl, hlt, hb⟩⟩ := s.block.enqueue_cases length buffer hlen
    · exact ⟨hlen, .inl ⟨hr, by rw [hb]⟩⟩
    · exact ⟨hlen, .inr ⟨hr, h4, hl, hlt, by rw [hb]⟩⟩
  · unfold execEnq at h
    rw [if_neg hlen] at h
    cases h

/-- The one spec of `DEQ`. -/
theorem Block.dequeue_cases (b : Block) :
    (b.writePos = b.readPos ∧ b.dequeue = (none, b)) ∨
      (b.writePos ≠ b.readPos ∧
        b.dequeue = (some (b.mem.read b.readPos), { b with readPos := b.readPos + 1#5 })) := by
  unfold Block.dequeue
  split
  · exact .inl ⟨‹_›, rfl⟩
  · exact .inr ⟨‹_›, rfl⟩

/-! ### The live samples -/

@[simp] theorem Block.live_length (b : Block) : b.live.length = b.occupancy := by simp [Block.live]

/-- The live samples depend on the buffer and the cursors alone. -/
theorem Block.live_congr {b c : Block} (hm : c.mem = b.mem) (hw : c.writePos = b.writePos) (hr : c.readPos = b.readPos) :
    c.live = b.live := by
  simp only [Block.live, Block.occupancy, Block.slotAt, hm, hw, hr]

theorem Block.occupancy_congr {b c : Block} (hw : c.writePos = b.writePos) (hr : c.readPos = b.readPos) :
    c.occupancy = b.occupancy := by
  simp only [Block.occupancy, hw, hr]

/-- How far the slot of the `k`-th live sample lies behind `write_pos`, forward around the index space. -/
theorem Block.distance_slotAt (b : Block) (k : Nat) (h : k < 32) :
    Memory.distance b.writePos (b.slotAt k) = (k + 32 - b.occupancy) % 32 := by
  have hw := b.writePos.isLt
  have hr := b.readPos.isLt
  simp only [Memory.distance, Block.slotAt, Block.occupancy_eq, BitVec.toNat_sub, BitVec.toNat_add, BitVec.toNat_ofNat]
  omega

theorem Block.storeBurst_occupancy (b : Block) (xs : List Sample) (h : xs.length < b.freeCapacity) :
    (b.storeBurst xs).occupancy = b.occupancy + xs.length := by
  have hf := b.freeCapacity_add_occupancy
  have hw := b.writePos.isLt
  have hr := b.readPos.isLt
  simp only [Block.occupancy_eq, Block.storeBurst_writePos, Block.storeBurst_readPos, BitVec.toNat_add,
    BitVec.toNat_ofNat] at hf ⊢
  omega

/-- A burst smaller than the free capacity reaches no live slot. -/
theorem Block.storeBurst_read_live (b : Block) (xs : List Sample) (h : xs.length < b.freeCapacity) {k : Nat}
    (hk : k < b.occupancy) : (b.storeBurst xs).mem.read (b.slotAt k) = b.mem.read (b.slotAt k) := by
  have hf := b.freeCapacity_add_occupancy
  rw [Block.storeBurst_mem, Memory.read_writeBurst _ _ _ _ (by omega), b.distance_slotAt k (by omega), dif_neg (by omega)]

/-- Storing a burst appends its samples to the live ones. -/
theorem Block.storeBurst_live (b : Block) (xs : List Sample) (h : xs.length < b.freeCapacity) :
    (b.storeBurst xs).live = b.live ++ xs := by
  have hf := b.freeCapacity_add_occupancy
  apply List.ext_getElem
  · simp [b.storeBurst_occupancy xs h]
  · intro k h1 h2
    simp only [Block.live_length, b.storeBurst_occupancy xs h] at h1
    simp only [Block.live, List.getElem_map, List.getElem_range]
    have hs : (b.storeBurst xs).slotAt k = b.slotAt k := rfl
    rw [hs]
    by_cases hk : k < b.occupancy
    · rw [b.storeBurst_read_live xs h hk, List.getElem_append_left (by simpa using hk)]
      simp
    · rw [Block.storeBurst_mem, Memory.read_writeBurst _ _ _ _ (by omega)]
      have hd : Memory.distance b.writePos (b.slotAt k) = k - b.occupancy := by
        rw [b.distance_slotAt k (by omega)]; omega
      simp only [hd]
      rw [dif_pos (by omega), List.getElem_append_right (by simpa using hk)]
      simp

/-- The oldest live sample is the one at `read_pos`; without it the rest moves up. -/
theorem Block.live_cons (b : Block) (h : b.writePos ≠ b.readPos) :
    b.live = b.mem.read b.readPos :: ({ b with readPos := b.readPos + 1#5 } : Block).live := by
  have hne : b.occupancy ≠ 0 := fun e => h ((b.occupancy_eq_zero).mp e)
  have hocc : ({ b with readPos := b.readPos + 1#5 } : Block).occupancy + 1 = b.occupancy := by
    have hw := b.writePos.isLt
    have hr := b.readPos.isLt
    simp only [Block.occupancy_eq, BitVec.toNat_add, BitVec.toNat_ofNat] at hne ⊢
    omega
  simp only [Block.live]
  rw [← hocc, List.range_succ_eq_map, List.map_cons, List.map_map]
  congr 1
  · simp [Block.slotAt]
  · apply List.map_congr_left
    intro k _
    simp only [Function.comp, Block.slotAt]
    congr 1
    apply BitVec.eq_of_toNat_eq
    simp only [BitVec.toNat_add, BitVec.toNat_ofNat]
    omega

theorem Block.live_empty (b : Block) (h : b.writePos = b.readPos) : b.live = [] := by
  simp [Block.live, (b.occupancy_eq_zero).mpr h]

end Sys2Proof.Machine
end

