-- ==== Sys2Proof/Laws/Scheduler.lean ====
section
/-! SUPPORT. What a tick and a configuration can do, said once. -/

namespace Sys2Proof.Machine

/-- The one spec of `CFG`. -/
theorem Block.configure_cases (b : Block) (f : Half) :
    (f = 0#16 ∧ b.configure f = b.generatorOff) ∨
      (f ≠ 0#16 ∧ b.configure f = { b with
        genCnt := 0#32
        genPeriod := togglePeriod f
        genEn := true
        halTrace := b.halTrace ++ [.configurePeriodicSource (togglePeriod f), .enablePeriodicInterrupt] }) := by
  unfold Block.configure
  split
  · exact .inl ⟨‹_›, rfl⟩
  · refine .inr ⟨‹_›, ?_⟩
    simp [Block.hal, HalCall.effect]

/-- `CFG` moves no cursor, no slot, no count and not the line. -/
theorem Block.configure_frame (b : Block) (f : Half) :
    (b.configure f).mem = b.mem ∧ (b.configure f).writePos = b.writePos ∧ (b.configure f).readPos = b.readPos ∧
      (b.configure f).elapsed = b.elapsed ∧ (b.configure f).activeDuration = b.activeDuration ∧
      (b.configure f).out = b.out := by
  obtain ⟨_, h⟩ | ⟨_, h⟩ := b.configure_cases f <;> rw [h] <;> simp

/-- The toggle period of a clamped frequency, as a number. -/
theorem togglePeriod_toNat (f : Half) : (togglePeriod f).toNat = 1000000 / min f.toNat 10000 / 2 := by
  have h : 1000000 / min f.toNat 10000 / 2 ≤ 1000000 :=
    (Nat.div_le_self _ _).trans (Nat.div_le_self _ _)
  simp only [togglePeriod, Config.timebaseHz, Config.freqMax, BitVec.toNat_ofNat]
  exact Nat.mod_eq_of_lt (by omega)

theorem togglePeriod_range (f : Half) (h : f ≠ 0#16) :
    50 ≤ (togglePeriod f).toNat ∧ (togglePeriod f).toNat ≤ 500000 := by
  have hf : f.toNat ≠ 0 := fun e => h (BitVec.eq_of_toNat_eq e)
  rw [togglePeriod_toNat, Nat.div_div_eq_div_mul]
  constructor
  · rw [Nat.le_div_iff_mul_le (by omega)]
    omega
  · calc 1000000 / (min f.toNat 10000 * 2) ≤ 1000000 / 2 := Nat.div_le_div_left (by omega) (by decide)
      _ = 500000 := by decide

/-- In numbers, where the duration fits 16 bits: which branch a tick takes. -/
theorem Block.phase_eq (b : Block) (h : b.activeDuration.toNat ≤ 65535) :
    b.phase = if b.elapsed.toNat < b.activeDuration.toNat then .sounding
      else if b.elapsed.toNat ≤ b.activeDuration.toNat + 5 then .gap else .due := by
  have hs : (b.activeDuration + Config.gapTicks).toNat = b.activeDuration.toNat + 5 := by
    simp only [Config.gapTicks, BitVec.toNat_add, BitVec.toNat_ofNat]
    omega
  simp only [Block.phase, BitVec.lt_def, BitVec.le_def, hs]

/-- The one spec of `TICK`: exactly one of the four cases. -/
theorem Block.tick_cases (b : Block) :
    (b.phase = .sounding ∧ b.tick = b.countTick) ∨
      (b.phase = .gap ∧ b.tick = b.generatorOff.countTick) ∨
      (b.phase = .due ∧ b.writePos = b.readPos ∧ b.tick = b.goIdle) ∨
      (b.phase = .due ∧ b.writePos ≠ b.readPos ∧
        b.tick = ({ b with readPos := b.readPos + 1#5 } : Block).startSample (b.mem.read b.readPos)) := by
  unfold Block.tick
  split
  · exact .inl ⟨‹_›, rfl⟩
  · exact .inr (.inl ⟨‹_›, rfl⟩)
  · obtain ⟨he, hd⟩ | ⟨he, hd⟩ := b.dequeue_cases
    · exact .inr (.inr (.inl ⟨‹_›, he, by rw [hd]⟩))
    · exact .inr (.inr (.inr ⟨‹_›, he, by rw [hd]⟩))

/-- The one spec of `USEC`. -/
theorem Block.usec_cases (b : Block) :
    (b.genEn = false ∧ b.usec = b) ∨
      (b.genEn = true ∧ b.genCnt + 1#32 = b.genPeriod ∧ b.usec = ({ b with genCnt := 0#32 } : Block).toggle) ∨
      (b.genEn = true ∧ b.genCnt + 1#32 ≠ b.genPeriod ∧ b.usec = { b with genCnt := b.genCnt + 1#32 }) := by
  unfold Block.usec
  split
  · split
    · exact .inr (.inl ⟨‹_›, ‹_›, rfl⟩)
    · exact .inr (.inr ⟨‹_›, ‹_›, rfl⟩)
  · rename_i hg
    exact .inl ⟨by simpa using hg, rfl⟩

end Sys2Proof.Machine
end

