-- ==== Sys2Proof/Laws/Step.lean ====
section
/-! SUPPORT. What a step can do, said once. -/

namespace Sys2Proof.Machine

/-- The startup burst is 8 bytes. -/
theorem startupBurst_length (k : Fin 4) : (startupBurst k).length = (8#32 : Word).toNat := rfl

/-- A step runs the next event on the state without it. -/
theorem step_event {s : State} {e : Event} {rest : List Event} (h : s.inbox = e :: rest) :
    step s = State.runEvent { s with inbox := rest } e := by
  simp [step, State.runNext, h]

/-- A step that answers had an event to take. -/
theorem step_has_event {s t : State} (h : step s = .next t) : ∃ e rest, s.inbox = e :: rest := by
  cases hi : s.inbox with
  | nil => simp [step, State.runNext, hi] at h
  | cons e rest => exact ⟨e, rest, rfl⟩

/-! ### The calls of a `STARTUP` -/

@[simp] theorem pendingCalls_nil : pendingCalls [] = [] := rfl

@[simp] theorem pendingCalls_call (bytes : List Byte) (es : List Event) :
    pendingCalls (.call bytes :: es) = pendingCalls es := rfl

@[simp] theorem pendingCalls_turn (es : List Event) : pendingCalls (.startupTurn :: es) = pendingCalls es := rfl

@[simp] theorem pendingCalls_enq (k : Fin 4) (es : List Event) :
    pendingCalls (.startupEnq k :: es) = k :: pendingCalls es := rfl

@[simp] theorem pendingCalls_usec (es : List Event) : pendingCalls (.usec :: es) = pendingCalls es := rfl

@[simp] theorem pendingCalls_append (es fs : List Event) : pendingCalls (es ++ fs) = pendingCalls es ++ pendingCalls fs :=
  List.filterMap_append

@[simp] theorem pendingCalls_map (ks : List (Fin 4)) : pendingCalls (ks.map .startupEnq) = ks := by
  induction ks with
  | nil => rfl
  | cons k ks ih => simp [ih]

/-- No call of a `STARTUP` is left once they are dropped. -/
@[simp] theorem pendingCalls_withoutCalls (es : List Event) : pendingCalls (withoutCalls es) = [] := by
  induction es with
  | nil => rfl
  | cons e es ih => cases e <;> simpa [withoutCalls, Event.startupPosition] using ih

/-- Taking a call from the inbox does not change which calls are turned away. -/
theorem State.turnedAway_call {s : State} {bytes : List Byte} {rest : List Event} (hi : s.inbox = .call bytes :: rest)
    (i : Instr) : State.turnedAway { s with inbox := rest } i = s.turnedAway i := by
  have h : pendingCalls s.inbox = pendingCalls rest := by rw [hi, pendingCalls_call]
  cases i <;> simp only [State.turnedAway, h]

/-! ### Steps -/

/-- A decoded call that runs was not turned away. -/
theorem State.invoke_cases {s t : State} {i : Instr} (h : s.invoke i = .next t) :
    s.turnedAway i = none ∧ exec i { s with reader := readerAfter i s.reader } = .next t := by
  unfold State.invoke at h
  split at h
  · cases h
  · exact ⟨‹_›, h⟩

/-- A call that runs decodes to an instruction that is not turned away. -/
theorem step_call {s t : State} {bytes : List Byte} {rest : List Event} (hi : s.inbox = .call bytes :: rest)
    (h : step s = .next t) :
    ∃ i, decode .op bytes = .ok i ∧ s.turnedAway i = none ∧
      exec i { s with inbox := rest, reader := readerAfter i s.reader } = .next t := by
  rw [step_event hi] at h
  simp only [State.runEvent, State.runCall] at h
  split at h
  · cases h
  · rename_i i hd
    obtain ⟨h1, h2⟩ := State.invoke_cases h
    rw [State.turnedAway_call hi] at h1
    exact ⟨i, hd, h1, h2⟩

/-- A place left to a `STARTUP` that has no call left to make. -/
theorem step_startupTurn {s : State} {rest : List Event} (hi : s.inbox = .startupTurn :: rest) :
    step s = .refused .noStartupInProgress := by
  rw [step_event hi]
  rfl

/-- A call of a `STARTUP` is an `ENQ` of its 8 bytes. -/
theorem step_startupEnq {s : State} {k : Fin 4} {rest : List Event} (hi : s.inbox = .startupEnq k :: rest) :
    step s = .next { s with inbox := rest, block := (s.block.enqueue 8#32 (startupBurst k)).2 } := by
  rw [step_event hi]
  exact execEnq_eq _ (startupBurst_length k)

/-- A unit of the timing base. -/
theorem step_usec {s : State} {rest : List Event} (hi : s.inbox = .usec :: rest) :
    step s = .next { s with inbox := rest, block := s.block.usec } := by
  rw [step_event hi]
  rfl

/-! ### Where the calls of a `STARTUP` come -/

/-- Where the environment leaves no place, the calls come at once. -/
theorem scheduleCalls_no_turn (ks : List (Fin 4)) {es : List Event} (h : .startupTurn ∉ es) :
    scheduleCalls ks es = ks.map .startupEnq ++ es := by
  cases ks with
  | nil => simp [scheduleCalls]
  | cons k ks =>
    cases es with
    | nil => simp [scheduleCalls]
    | cons e es =>
      simp only [List.mem_cons, not_or] at h
      simp [scheduleCalls, Ne.symm h.1, h.2]

/-! ### Runs -/

/-- The run is the host's run of `Sys2Proof.core`. -/
theorem runSteps_eq_core_run (n : Nat) (s : State) : runSteps n s = Sys2Proof.core.run n s := by
  induction n generalizing s with
  | zero => rfl
  | succ n ih =>
    cases hs : step s with
    | next t =>
      have hc : Sys2Proof.core.step s = .next t := hs
      simp only [runSteps, Host.Core.run, hs, hc]
      exact ih t
    | fault why =>
      have hc : Sys2Proof.core.step s = .fault why := hs
      simp only [runSteps, Host.Core.run, hs, hc]
      rfl
    | refused why =>
      have hc : Sys2Proof.core.step s = .refused why := hs
      simp only [runSteps, Host.Core.run, hs, hc]
      rfl

@[simp] theorem runSteps_zero (s : State) : runSteps 0 s = .next s := rfl

theorem runSteps_succ {s t : State} (n : Nat) (h : step s = .next t) : runSteps (n + 1) s = runSteps n t := by
  simp only [runSteps, h]

/-- A run of `m + n` steps is a run of `n` steps from where `m` steps lead. -/
theorem runSteps_add {s t : State} (m n : Nat) (h : runSteps m s = .next t) : runSteps (m + n) s = runSteps n t := by
  induction m generalizing s with
  | zero => cases h; rw [Nat.zero_add]
  | succ m ih =>
    rw [Nat.succ_add]
    simp only [runSteps] at h ⊢
    split at h
    · exact ih h
    · cases h
    · cases h

/-- Everything a step can do to the block. -/
theorem step_block_cases {s t : State} (h : step s = .next t) :
    t.block = s.block ∨ t.block = s.block.initialise ∨
      (∃ xs, xs.length < s.block.freeCapacity ∧ t.block = s.block.storeBurst xs) ∨
      t.block = s.block.tick ∨ (s.block.genEn = true ∧ t.block = s.block.toggle) ∨
      t.block = s.block.dequeue.2 ∨ t.block = s.block.usec := by
  obtain ⟨e, rest, hi⟩ := step_has_event h
  cases e with
  | call bytes =>
    obtain ⟨i, hd, ha, hx⟩ := step_call hi h
    cases i with
    | reset => cases hx; exact .inr (.inl rfl)
    | freecap => cases hx; exact .inl rfl
    | enq length buffer =>
      obtain ⟨_, ⟨_, rfl⟩ | ⟨_, _, _, hlt, rfl⟩⟩ := execEnq_cases hx
      · exact .inl rfl
      · exact .inr (.inr (.inl ⟨_, hlt, rfl⟩))
    | tick => cases hx; exact .inr (.inr (.inr (.inl rfl)))
    | startup rev => cases hx; exact .inl rfl
    | fire =>
      simp only [exec, execFire] at hx
      split at hx
      · cases hx; exact .inr (.inr (.inr (.inr (.inl ⟨‹_›, rfl⟩))))
      · cases hx
    | deq => cases hx; exact .inr (.inr (.inr (.inr (.inr (.inl rfl)))))
    | cfg f => cases ha
    | genoff => cases ha
    | rest dur => cases ha
    | note freq dur => cases ha
  | startupTurn =>
    rw [step_startupTurn hi] at h
    cases h
  | startupEnq k =>
    rw [step_startupEnq hi] at h
    cases h
    obtain ⟨_, ⟨_, hb⟩ | ⟨_, _, _, hlt, hb⟩⟩ := s.block.enqueue_cases 8#32 (startupBurst k) (startupBurst_length k)
    · exact .inl hb
    · exact .inr (.inr (.inl ⟨_, hlt, hb⟩))
  | usec =>
    rw [step_usec hi] at h
    cases h
    exact .inr (.inr (.inr (.inr (.inr (.inr rfl)))))

end Sys2Proof.Machine
end

