-- ==== Sys2Proof/Tests/Slice0.lean ====
section
/-! SUPPORT. Tests. The expected values come from the spec: the encodings of 30_encoding, the vectors of 95_test_vectors
(named in each docstring) and the rules. The `witness_` theorems show states and operands that meet the hypotheses of a
statement of Certificates/Slice0/Obligations.lean, clause by clause, at boundary values. -/

namespace Sys2Proof.Tests

open Sys2Proof Sys2Proof.Machine

/-! ### Helpers -/

/-- The next state, if there is one. -/
def nextOf : Host.Outcome State Fault Refusal → Option State
  | .next t => some t
  | .fault _ => none
  | .refused _ => none

/-- The reason of a refusal, if there is one. -/
def refusalOf : Host.Outcome State Fault Refusal → Option Refusal
  | .next _ => none
  | .fault _ => none
  | .refused why => some why

/-- What a test reads of the next state. -/
def look {α : Type} (f : State → α) (o : Host.Outcome State Fault Refusal) : Option α := (nextOf o).map f

/-- A state with these cursors, and everything else as after reset. -/
def queued (w r : SlotIx) (m : Memory) : State :=
  { State.reset with block := { State.reset.block with mem := m, writePos := w, readPos := r } }

/-- A state with this pair in the scheduler, one sample `x` queued in slot 0, and a generator programmed for 440 Hz. -/
def playing (e d : Word) (on : Bool) (x : Sample) : State :=
  { State.reset with
    block :=
      { State.reset.block with
        mem := [(0, x)]
        writePos := 1#5
        elapsed := e
        activeDuration := d
        genEn := on
        genPeriod := 1136#32 } }

/-- The same state with these events to come. -/
def facing (s : State) (es : List Event) : State := { s with inbox := es }

/-- The same state with the queue emptied. -/
def drained (s : State) : State := { s with block := { s.block with readPos := s.block.writePos } }

/-! ### Well-formedness: each check refuses something -/

theorem test_wellFormed_enq_refuses_short_buffer : (Instr.enq 4#32 [1#8, 2#8, 3#8]).wellFormed = false := by decide
theorem test_wellFormed_enq_refuses_long_buffer : (Instr.enq 1#32 [1#8, 2#8]).wellFormed = false := by decide
theorem test_wellFormed_note_refuses_frequency_zero : (Instr.note 0#16 5#16).wellFormed = false := by decide
theorem test_wellFormed_accepts :
    (Instr.enq 4#32 [1#8, 2#8, 3#8, 4#8]).wellFormed = true ∧ (Instr.note 1#16 0#16).wellFormed = true := by decide

/-! ### Decoding: one word written out from the spec for every constructor -/

/-- 30_encoding R51: the selector codes. -/
theorem test_decode_reset : decode .op [0b0000#8] = .ok .reset := rfl
theorem test_decode_freecap : decode .op [0b0001#8] = .ok .freecap := rfl
theorem test_decode_enq : decode .op [0b0010#8, 0x04#8, 0x00#8, 0x00#8, 0x00#8, 0xB8#8, 0x01#8, 0x64#8, 0x00#8] =
    .ok (.enq 4#32 [0xB8#8, 0x01#8, 0x64#8, 0x00#8]) := rfl
theorem test_decode_tick : decode .op [0b0011#8] = .ok .tick := rfl
theorem test_decode_startup : decode .op [0b0100#8, 0b01101100#8] = .ok (.startup 0x6C#8) := rfl
theorem test_decode_fire : decode .op [0b0101#8] = .ok .fire := rfl
theorem test_decode_deq : decode .op [0b1000#8] = .ok .deq := rfl
theorem test_decode_cfg : decode .op [0b1001#8, 0xB8#8, 0x01#8] = .ok (.cfg 440#16) := rfl
theorem test_decode_genoff : decode .op [0b1010#8] = .ok .genoff := rfl
/-- 95 X2. -/
theorem test_decode_rest : decode .sample [0x00#8, 0x00#8, 0x0F#8, 0x00#8] = .ok (.rest 15#16) := rfl
/-- 95 X6: the frequency's low byte is 0 and the sample is no rest. -/
theorem test_decode_note : decode .sample [0x00#8, 0x01#8, 0xFF#8, 0x00#8] = .ok (.note 256#16 255#16) := rfl

/-- 95 X1, X3 to X5, X7 to X9. -/
theorem test_decode_sample_vectors :
    decode .sample [0xB8#8, 0x01#8, 0x64#8, 0x00#8] = .ok (.note 440#16 100#16) ∧
    decode .sample [0x10#8, 0x27#8, 0xFF#8, 0xFF#8] = .ok (.note 10000#16 65535#16) ∧
    decode .sample [0xFF#8, 0xFF#8, 0x00#8, 0x00#8] = .ok (.note 65535#16 0#16) ∧
    decode .sample [0x01#8, 0x00#8, 0x01#8, 0x00#8] = .ok (.note 1#16 1#16) ∧
    decode .sample [0x50#8, 0xC3#8, 0x01#8, 0x00#8] = .ok (.note 50000#16 1#16) ∧
    decode .sample [0x00#8, 0x00#8, 0x00#8, 0x00#8] = .ok (.rest 0#16) ∧
    decode .sample [0xE8#8, 0x03#8, 0x96#8, 0x00#8] = .ok (.note 1000#16 150#16) :=
  ⟨rfl, rfl, rfl, rfl, rfl, rfl, rfl⟩

/-- 95 X1, X2, X9, encoded. -/
theorem test_encode_samples :
    encode (.note 440#16 100#16) = [0xB8#8, 0x01#8, 0x64#8, 0x00#8] ∧
    encode (.rest 15#16) = [0x00#8, 0x00#8, 0x0F#8, 0x00#8] ∧
    encode (.note 1000#16 150#16) = [0xE8#8, 0x03#8, 0x96#8, 0x00#8] := by decide

/-- The refusals of the decoder, each by its name (30_encoding R54, 93 U15, U19). -/
theorem test_decode_refusals :
    decode .op [] = .error .emptyCall ∧
    decode .op [0x06#8] = .error (.reservedSelector 0x6#4) ∧
    decode .op [0x0B#8] = .error (.reservedSelector 0xB#4) ∧
    decode .op [0x02#8, 0x04#8, 0x00#8, 0x00#8, 0x00#8, 0x01#8] = .error .operandsMissing ∧
    decode .op [0x03#8, 0x00#8] = .error .operandsLeftOver ∧
    decode .sample [0x00#8, 0x00#8, 0x00#8] = .error .notFourBytes := ⟨rfl, rfl, rfl, rfl, rfl, rfl⟩

/-- The rows of spec/opcode_table.json, every bit outside the row's fixed bits 0; the row `NOTE` with frequency 440. -/
theorem test_decodeTableWord_rows :
    decodeTableWord 8 0x0 = some .reset ∧ decodeTableWord 8 0x1 = some .freecap ∧
    decodeTableWord 8 0x2 = some (.enq 0#32 []) ∧ decodeTableWord 8 0x3 = some .tick ∧
    decodeTableWord 8 0x4 = some (.startup 0#8) ∧ decodeTableWord 8 0x5 = some .fire ∧
    decodeTableWord 8 0x6 = none ∧ decodeTableWord 8 0x8 = some .deq ∧
    decodeTableWord 8 0x9 = some (.cfg 0#16) ∧ decodeTableWord 8 0xA = some .genoff ∧
    decodeTableWord 32 0x00040000 = some (.rest 4#16) ∧
    decodeTableWord 32 0x006401B8 = some (.note 440#16 100#16) := by decide

/-! ### One step on a small state, per instruction -/

/-- 70 R120, from a state where every register is set. -/
theorem test_reset_clears_registers :
    look (fun t => (t.block.writePos, t.block.readPos, t.block.elapsed, t.block.activeDuration, t.block.genEn, t.block.out))
      (exec .reset { (playing 3#32 9#32 true ⟨1#16, 1#16⟩) with
        block := { (playing 3#32 9#32 true ⟨1#16, 1#16⟩).block with out := true, readPos := 7#5 } }) =
      some (0#5, 0#5, 0#32, 0#32, false, false) := by decide

/-- 70 R121: the trace is the two calls of `RESET`, and the slots stay. -/
theorem test_reset_trace_and_slots :
    look (fun t => (t.block.halTrace, t.block.mem)) (exec .reset (playing 3#32 9#32 true ⟨1#16, 1#16⟩)) =
      some ([.disablePeriodicInterrupt, .setOutput false], [(0, ⟨1#16, 1#16⟩)]) := by decide

/-- 95 Q1. -/
theorem test_freecap_vectors :
    (queued 0#5 0#5 []).block.freeCapacity = 31 ∧ (queued 17#5 17#5 []).block.freeCapacity = 31 ∧
    (queued 0#5 31#5 []).block.freeCapacity = 30 ∧ (queued 30#5 28#5 []).block.freeCapacity = 29 ∧
    (queued 3#5 30#5 []).block.freeCapacity = 26 ∧ (queued 30#5 0#5 []).block.freeCapacity = 1 ∧
    (queued 16#5 17#5 []).block.freeCapacity = 0 := by decide

/-- 95 Q1, the row (3, 30), as an operation. -/
theorem test_freecap_answers :
    reply .freecap (queued 3#5 30#5 []) = .freeCapacity 26#5 ∧
    nextOf (exec .freecap (queued 3#5 30#5 [])) = some (queued 3#5 30#5 []) := by decide

/-- 95 Q7, the burst across slot 31. -/
theorem test_enq_wraps :
    look (fun t => (t.block.mem, t.block.writePos, t.block.readPos))
      (exec (.enq 16#32 [0xF5#8, 0x01#8, 0x01#8, 0x00#8, 0xF6#8, 0x01#8, 0x02#8, 0x00#8,
          0xF7#8, 0x01#8, 0x03#8, 0x00#8, 0xF8#8, 0x01#8, 0x04#8, 0x00#8]) (queued 30#5 30#5 [])) =
      some ([(0, ⟨503#16, 3#16⟩), (1, ⟨504#16, 4#16⟩), (30, ⟨501#16, 1#16⟩), (31, ⟨502#16, 2#16⟩)],
        2#5, 30#5) := by decide

/-- 95 Q4 (b), Q5, Q6: what `ENQ` answers for a length. -/
theorem test_enq_results :
    (queued 26#5 0#5 []).block.enqResult 20#32 = .queueFull ∧ (queued 26#5 0#5 []).block.enqResult 16#32 = .ok ∧
    (queued 0#5 0#5 []).block.enqResult 4294967295#32 = .malformedInput ∧
    (queued 0#5 0#5 []).block.enqResult 126#32 = .malformedInput ∧
    (queued 0#5 0#5 []).block.enqResult 124#32 = .queueFull ∧
    (queued 31#5 0#5 []).block.enqResult 0#32 = .queueFull := by decide

/-- 95 S9: which branch a tick takes. -/
theorem test_tick_branches :
    ([(0, 0), (0, 1), (1, 1), (5, 0), (6, 0), (99, 100), (100, 100), (105, 100), (106, 100), (65534, 65535),
        (65540, 65535), (65541, 65535)].map fun (e, d) =>
      (playing (BitVec.ofNat 32 e) (BitVec.ofNat 32 d) false ⟨1#16, 1#16⟩).block.phase) =
      [.gap, .sounding, .gap, .gap, .due, .sounding, .gap, .gap, .due, .sounding, .gap, .due] := by decide

/-- 95 S1, tick 7. -/
theorem test_tick_fetches :
    look (fun t => (t.block.elapsed, t.block.activeDuration, t.block.genEn, t.block.genPeriod, t.block.readPos))
      (exec .tick (playing 6#32 0#32 false ⟨440#16, 100#16⟩)) = some (0#32, 100#32, true, 1136#32, 1#5) := by decide

/-- 95 T1, T4: the calls, by field position. -/
theorem test_startup_calls :
    startupCalls 0x6C#8 = [0, 1, 1, 2, 2, 2] ∧ startupCalls 0x01#8 = [3] ∧ startupCalls 0x40#8 = [0] ∧
    startupCalls 0x1B#8 = [1, 2, 2, 3, 3, 3] ∧ startupCalls 0x00#8 = [] ∧ (startupCalls 0xFF#8).length = 12 := by decide

/-- 95 T6, call 3: with two free slots the repetition is dropped, and with three it is taken. -/
theorem test_startup_call_drops :
    look (fun t => (t.block.writePos, t.inbox)) (step (facing (queued 29#5 0#5 []) [.startupEnq 2, .usec])) =
      some (29#5, [.usec]) ∧
    look (fun t => (t.block.writePos, t.inbox)) (step (facing (queued 28#5 0#5 []) [.startupEnq 2, .usec])) =
      some (30#5, [.usec]) := by decide

/-- 43 R91, R94: the calls come at the places left to the producer, and those left over after the last one; with no place
they come at once; a `RESET` drops them (70 R123). -/
theorem test_startup_schedule :
    look State.inbox (exec (.startup 0x15#8) (facing State.reset [.startupTurn, .usec, .startupTurn, .usec])) =
      some [.startupEnq 1, .usec, .startupEnq 2, .startupEnq 3, .usec] ∧
    look State.inbox (exec (.startup 0x15#8) (facing State.reset [.usec])) =
      some [.startupEnq 1, .startupEnq 2, .startupEnq 3, .usec] ∧
    look State.inbox (exec .reset (facing State.reset [.usec, .startupEnq 3, .startupTurn])) =
      some [.usec, .startupTurn] := by decide

/-- 95 G4. -/
theorem test_fire_toggles :
    look (fun t => t.block.out) (exec .fire (playing 3#32 100#32 true ⟨1#16, 1#16⟩)) = some true := by decide
theorem test_fire_needs_enable :
    refusalOf (exec .fire (playing 3#32 100#32 false ⟨1#16, 1#16⟩)) = some .fireWhileDisabled := by decide

/-- 95 Q9. -/
theorem test_deq_empty :
    reply .deq (queued 5#5 5#5 []) = .dequeued none ∧
    nextOf (exec .deq (queued 5#5 5#5 [])) = some (queued 5#5 5#5 []) := by decide
/-- 95 Q10. -/
theorem test_deq_wraps :
    reply .deq (queued 3#5 31#5 [(31, ⟨7#16, 7#16⟩)]) = .dequeued (some ⟨7#16, 7#16⟩) ∧
    look (fun t => t.block.readPos) (exec .deq (queued 3#5 31#5 [(31, ⟨7#16, 7#16⟩)])) = some 0#5 := by decide

/-- 95 G1, from the table of 42 R84. -/
theorem test_cfg_periods :
    ([1, 2, 3, 7, 8, 440, 441, 4999, 5000, 5001, 9999, 10000, 10001, 65535].map fun f =>
      (togglePeriod (BitVec.ofNat 16 f)).toNat) =
      [500000, 250000, 166666, 71428, 62500, 1136, 1133, 100, 100, 99, 50, 50, 50, 50] := by decide
/-- 95 G2. -/
theorem test_cfg_zero :
    look (fun t => (t.block.genEn, t.block.genPeriod, t.block.halTrace.length))
      (exec (.cfg 0#16) (playing 6#32 0#32 false ⟨1#16, 1#16⟩)) = some (false, 1136#32, 3) := by decide

/-- 95 G3. -/
theorem test_genoff :
    look (fun t => (t.block.genEn, t.block.genPeriod, t.block.out)) (exec .genoff
      { (playing 3#32 9#32 true ⟨1#16, 1#16⟩) with
        block := { (playing 3#32 9#32 true ⟨1#16, 1#16⟩).block with out := true } }) = some (false, 1136#32, true) := by decide

/-- 95 S5, tick 7. -/
theorem test_rest :
    look (fun t => (t.block.elapsed, t.block.activeDuration, t.block.genEn, t.block.genPeriod))
      (exec (.rest 4#16) (playing 6#32 0#32 false ⟨1#16, 1#16⟩)) = some (0#32, 4#32, false, 1136#32) := by decide

/-- 95 S8, tick 7. -/
theorem test_note_clamped :
    look (fun t => (t.block.elapsed, t.block.activeDuration, t.block.genEn, t.block.genPeriod, t.block.genCnt))
      (exec (.note 50000#16 1#16) (playing 6#32 0#32 false ⟨1#16, 1#16⟩)) = some (0#32, 1#32, true, 50#32, 0#32) := by decide

/-- Every row of the table runs as the first instruction after reset. -/
theorem test_first_instructions_run :
    ((nextOf (step (State.reset.withFetchWord 8 0x0))).isSome ∧ (nextOf (step (State.reset.withFetchWord 8 0x1))).isSome ∧
      (nextOf (step (State.reset.withFetchWord 8 0x2))).isSome ∧ (nextOf (step (State.reset.withFetchWord 8 0x3))).isSome ∧
      (nextOf (step (State.reset.withFetchWord 8 0x4))).isSome ∧ (nextOf (step (State.reset.withFetchWord 8 0x5))).isSome ∧
      (nextOf (step (State.reset.withFetchWord 8 0x8))).isSome) ∧
    look (fun t => t.block.elapsed) (step (State.reset.withFetchWord 8 0x9)) = some 0#32 ∧
    look (fun t => t.block.elapsed) (step (State.reset.withFetchWord 8 0xA)) = some 1#32 ∧
    look (fun t => t.block.activeDuration) (step (State.reset.withFetchWord 32 0x00040000)) = some 4#32 ∧
    look (fun t => t.block.genPeriod) (step (State.reset.withFetchWord 32 0x006401B8)) = some 1136#32 := by decide

/-- 42 R88: the firing comes with the unit at which the counter reaches the period. -/
theorem test_usec :
    look (fun t => (t.block.genCnt, t.block.out)) (step (facing { (playing 0#32 9#32 true ⟨1#16, 1#16⟩) with
      block := { (playing 0#32 9#32 true ⟨1#16, 1#16⟩).block with genCnt := 1135#32 } } [.usec])) = some (0#32, true) ∧
    look (fun t => (t.block.genCnt, t.block.out)) (step (facing { (playing 0#32 9#32 true ⟨1#16, 1#16⟩) with
      block := { (playing 0#32 9#32 true ⟨1#16, 1#16⟩).block with genCnt := 1134#32 } } [.usec])) = some (1135#32, false) := by
  decide

/-- With no event there is no step, nor at a place left to a `STARTUP` with no call to make. -/
theorem test_no_event :
    refusalOf (step State.reset) = some .noEvent ∧
    refusalOf (step (facing State.reset [.startupTurn])) = some .noStartupInProgress := by decide

/-! ### Witnesses: hypotheses that can be met, clause by clause -/

/-- DecodeEncodeRoundTrip: an `ENQ` with a buffer, an empty one, and the least frequency of a `NOTE`. -/
theorem witness_DecodeEncodeRoundTrip :
    (Instr.enq 4#32 [0xB8#8, 0x01#8, 0x64#8, 0x00#8]).wellFormed = true ∧ (Instr.enq 0#32 []).wellFormed = true ∧
    (Instr.note 1#16 65535#16).wellFormed = true := by decide

/-- DecodedCallIsItsEncoding: a selector byte whose high four bits are set. -/
theorem witness_DecodedCallIsItsEncoding : decode .op [0xF4#8, 0xFF#8] = .ok (.startup 0xFF#8) := rfl

/-- ReservedSelectorsRefused: the first and the last reserved code. -/
theorem witness_ReservedSelectorsRefused :
    (facing State.reset [.call [0x06#8]]).inbox = [.call [0x06#8]] ∧
    (0x06#8 : Byte).toNat % 16 ∈ [6, 7, 11, 12, 13, 14, 15] ∧ (0xFF#8 : Byte).toNat % 16 ∈ [6, 7, 11, 12, 13, 14, 15] := by
  decide

/-- StepRunsDecodedCall: a tick, and a harness `DEQ`. -/
theorem witness_StepRunsDecodedCall :
    (facing State.reset [.call [0x03#8]]).inbox = [.call [0x03#8]] ∧ decode .op [0x03#8] = .ok .tick ∧
    (facing State.reset [.call [0x03#8]]).turnedAway .tick = none ∧
    decode .op [0x08#8] = .ok .deq ∧ (facing State.reset [.call [0x08#8]]).turnedAway .deq = none :=
  ⟨rfl, rfl, rfl, rfl, rfl⟩

/-- WhichCallsAreTurnedAway: each of its clauses. -/
theorem witness_WhichCallsAreTurnedAway :
    (decode .op [0x0A#8] = .ok .genoff ∧ decode .op [0x09#8, 0x00#8, 0x00#8] = .ok (.cfg 0#16)) ∧
    (decode .op [0x08#8] = .ok .deq ∧ { facing State.reset [.call [0x08#8]] with reader := .scheduler }.reader = .scheduler) ∧
    (decode .op [0x03#8] = .ok .tick ∧ { facing State.reset [.call [0x03#8]] with reader := .harness }.reader = .harness) ∧
    (decode .op [0x04#8, 0x00#8] = .ok (.startup 0#8) ∧ pendingCalls [.startupEnq 3] ≠ []) ∧
    (Instr.tick ≠ .genoff ∧ (∀ f, Instr.tick ≠ .cfg f) ∧ Instr.tick ≠ .deq ∧
      (facing State.reset [.call [0x03#8]]).reader ≠ .harness) :=
  ⟨⟨rfl, rfl⟩, ⟨rfl, rfl⟩, ⟨rfl, rfl⟩, ⟨rfl, by decide⟩, ⟨by decide, (fun _ h => nomatch h), by decide, by decide⟩⟩

/-- TickRunsFetchedSample, TickFetchesSample: the earliest pair at which a fetch comes, and the one after the longest sample. -/
theorem witness_TickFetches :
    ((playing 6#32 0#32 false ⟨440#16, 100#16⟩).block.activeDuration.toNat ≤ 65535 ∧
      (playing 6#32 0#32 false ⟨440#16, 100#16⟩).block.activeDuration.toNat + 5 <
        (playing 6#32 0#32 false ⟨440#16, 100#16⟩).block.elapsed.toNat ∧
      (playing 6#32 0#32 false ⟨440#16, 100#16⟩).block.writePos ≠ (playing 6#32 0#32 false ⟨440#16, 100#16⟩).block.readPos ∧
      (playing 6#32 0#32 false ⟨440#16, 100#16⟩).block.mem.read 0#5 = ⟨440#16, 100#16⟩) ∧
    ((playing 65541#32 65535#32 false ⟨0#16, 0#16⟩).block.activeDuration.toNat ≤ 65535 ∧
      (playing 65541#32 65535#32 false ⟨0#16, 0#16⟩).block.activeDuration.toNat + 5 <
        (playing 65541#32 65535#32 false ⟨0#16, 0#16⟩).block.elapsed.toNat ∧
      (playing 65541#32 65535#32 false ⟨0#16, 0#16⟩).block.mem.read 0#5 = ⟨0#16, 0#16⟩) := by decide

/-- StartupCallIsOrdinaryEnq: two free slots, and three. -/
theorem witness_StartupCallIsOrdinaryEnq :
    (facing (queued 29#5 0#5 []) [.startupEnq 2]).inbox = [.startupEnq 2] ∧
    (queued 29#5 0#5 []).block.freeCapacity = 2 ∧ (queued 28#5 0#5 []).block.freeCapacity = 3 := by decide

/-- NothingSurvivesReset: two states that differ in everything but the slots and the events to come. -/
theorem witness_NothingSurvivesReset :
    (∃ t, exec .reset { facing (queued 3#5 1#5 []) [.startupEnq 2, .usec] with reader := .harness } = .next t) ∧
    (∃ v, exec .reset (facing (queued 9#5 9#5 []) [.usec]) = .next v) ∧
    withoutCalls [.startupEnq 2, .usec] = withoutCalls [.usec] ∧
    (Instr.format .deq = .op ∧ Instr.deq ≠ .genoff ∧ (∀ f, Instr.deq ≠ .cfg f)) :=
  ⟨⟨_, rfl⟩, ⟨_, rfl⟩, rfl, rfl, by decide, fun _ h => by cases h⟩

/-- FreecapReturnsFreeCapacity: equal cursors, a burst as large as the free capacity, and one a sample smaller. -/
theorem witness_FreecapReturnsFreeCapacity :
    (queued 31#5 31#5 []).block.writePos = (queued 31#5 31#5 []).block.readPos ∧ State.reset.block.Inv ∧
    ([1#8, 2#8, 3#8, 4#8].length = (4#32 : Word).toNat ∧
      (4#32 : Word).toNat = 4 * (31 - ((queued 30#5 0#5 []).block.writePos.toNat + 32 -
        (queued 30#5 0#5 []).block.readPos.toNat) % 32)) ∧
    ([1#8, 2#8, 3#8, 4#8].length = (4#32 : Word).toNat ∧
      (4#32 : Word).toNat + 4 = 4 * (31 - ((queued 29#5 0#5 []).block.writePos.toNat + 32 -
        (queued 29#5 0#5 []).block.readPos.toNat) % 32)) :=
  ⟨rfl, ⟨by decide, by decide, by decide, by decide, by decide, by decide, by decide, by decide, by decide, by decide⟩,
    by decide, by decide⟩

/-- EnqStoresBurst, SuccessLowersFreeCapacity: the empty burst, and the largest that fits (95 Q4 b). -/
theorem witness_EnqSucceeds :
    (([] : List Byte).length = (0#32 : Word).toNat ∧ (0#32 : Word).toNat % 4 = 0 ∧
      (0#32 : Word).toNat / 4 < 31 - ((queued 30#5 0#5 []).block.writePos.toNat + 32 -
        (queued 30#5 0#5 []).block.readPos.toNat) % 32) ∧
    ((List.replicate 16 7#8).length = (16#32 : Word).toNat ∧ (16#32 : Word).toNat % 4 = 0 ∧
      (16#32 : Word).toNat / 4 < (queued 26#5 0#5 []).block.freeCapacity) := by decide

/-- MalformedLengthRejected, RejectionChangesNothing: the least malformed length, and a burst that is answered otherwise. -/
theorem witness_MalformedLengthRejected :
    ([9#8].length = (1#32 : Word).toNat ∧ (1#32 : Word).toNat % 4 ≠ 0) ∧
    (([] : List Byte).length = (0#32 : Word).toNat ∧ (0#32 : Word).toNat % 4 = 0 ∧
      reply (.enq 0#32 []) State.reset = .enqueued .ok) := by decide

/-- FullQueueRejected, RejectionChangesNothing: as many samples as are free; a malformed burst that is also too large. -/
theorem witness_FullQueueRejected :
    ((List.replicate 20 7#8).length = (20#32 : Word).toNat ∧ (20#32 : Word).toNat % 4 = 0 ∧
      31 - ((queued 26#5 0#5 []).block.writePos.toNat + 32 - (queued 26#5 0#5 []).block.readPos.toNat) % 32 ≤
        (20#32 : Word).toNat / 4 ∧ (queued 26#5 0#5 []).block.freeCapacity ≤ (20#32 : Word).toNat / 4) ∧
    (¬ ((21#32 : Word).toNat % 4 = 0 ∧
        31 - ((queued 26#5 0#5 []).block.writePos.toNat + 32 - (queued 26#5 0#5 []).block.readPos.toNat) % 32 ≤
          (21#32 : Word).toNat / 4) ∧
      reply (.enq 21#32 (List.replicate 21 7#8)) (queued 26#5 0#5 []) = .enqueued .malformedInput) := by decide

/-- ZeroLengthSucceeds: one free slot, and none. -/
theorem witness_ZeroLengthSucceeds :
    1 ≤ (queued 30#5 0#5 []).block.freeCapacity ∧ (queued 31#5 0#5 []).block.freeCapacity = 0 := by decide

/-- OversizeBurstRejected: 31 samples, and 30. -/
theorem witness_OversizeBurstRejected :
    ((List.replicate 124 7#8).length = (124#32 : Word).toNat ∧ (124#32 : Word).toNat % 4 = 0 ∧ 124 ≤ (124#32 : Word).toNat) ∧
    ((List.replicate 120 7#8).length = (120#32 : Word).toNat ∧ (120#32 : Word).toNat % 4 = 0 ∧
      (120#32 : Word).toNat = 120) :=
  ⟨⟨List.length_replicate, by decide, by decide⟩, ⟨List.length_replicate, by decide, by decide⟩⟩

/-- BufferMismatchRefused: one byte too few, and one too many. -/
theorem witness_BufferMismatchRefused :
    [1#8, 2#8, 3#8].length ≠ (4#32 : Word).toNat ∧ [1#8].length ≠ (0#32 : Word).toNat := by decide

/-- DeqReturnsOldest: equal cursors, and a sample in slot 31. -/
theorem witness_DeqReturnsOldest :
    (queued 5#5 5#5 []).block.writePos = (queued 5#5 5#5 []).block.readPos ∧
    (queued 3#5 31#5 [(31, ⟨7#16, 7#16⟩)]).block.writePos ≠ (queued 3#5 31#5 [(31, ⟨7#16, 7#16⟩)]).block.readPos := by decide

/-- EnqKeepsLiveSlots: a burst accepted beside a live slot. -/
theorem witness_EnqKeepsLiveSlots :
    (nextOf (exec (.enq 4#32 [1#8, 0#8, 1#8, 0#8]) (playing 0#32 0#32 false ⟨9#16, 9#16⟩))).isSome = true ∧
    0 < (playing 0#32 0#32 false ⟨9#16, 9#16⟩).block.occupancy := by decide

/-- FetchedSlotWasWritten, StepKeepsInvariant, QueueBounds, FireCommutes: the invariant in a state that is not the state of
reset, with a sample queued and another sounding. -/
theorem witness_Inv :
    (playing 100#32 100#32 true ⟨440#16, 100#16⟩).block.Inv ∧
    (playing 100#32 100#32 true ⟨440#16, 100#16⟩).block.writePos ≠ (playing 100#32 100#32 true ⟨440#16, 100#16⟩).block.readPos :=
  ⟨⟨by decide, by decide, by decide, by decide, by decide, by decide, by decide, by decide, by decide, by decide⟩, by decide⟩

/-- StepKeepsInvariant, StepKeepsMirrorsMatched, HalTraceOnlyGrows: a step from such a state. -/
theorem witness_steps_from_Inv :
    (facing (playing 100#32 100#32 true ⟨440#16, 100#16⟩) [.call [0x03#8]]).inbox = [.call [0x03#8]] ∧
    (nextOf (step (facing (playing 100#32 100#32 true ⟨440#16, 100#16⟩) [.call [0x03#8]]))).isSome = true ∧
    (facing State.reset [.call [0x03#8]]).block.mirrors = Mirrors.ofTrace (facing State.reset [.call [0x03#8]]).block.halTrace ∧
    (nextOf (step (facing State.reset [.call [0x03#8]]))).isSome = true := by decide

/-- BufferRefinesFifoQueue: a step of each kind. -/
theorem witness_BufferRefinesFifoQueue :
    (nextOf (step (facing State.reset [.call [0x00#8]]))).isSome = true ∧
    (nextOf (step (facing State.reset [.call [0x02#8, 0x00#8, 0x00#8, 0x00#8, 0x00#8]]))).isSome = true ∧
    (nextOf (step (facing (playing 0#32 0#32 false ⟨9#16, 9#16⟩) [.call [0x08#8]]))).isSome = true ∧
    (nextOf (step (facing (playing 6#32 0#32 false ⟨9#16, 9#16⟩) [.call [0x03#8]]))).isSome = true ∧
    look State.inbox (step (facing State.reset [.startupEnq 0, .startupEnq 1])) = some [.startupEnq 1] ∧
    (nextOf (step (facing State.reset [.usec]))).isSome = true := by decide

/-- TickWhileSounding, TickInGap, TickFindsQueueEmpty: the ends of each branch's range (95 S9). -/
theorem witness_tick_branches :
    ((playing 0#32 1#32 true ⟨1#16, 1#16⟩).block.elapsed.toNat < (playing 0#32 1#32 true ⟨1#16, 1#16⟩).block.activeDuration.toNat ∧
      (playing 65534#32 65535#32 true ⟨1#16, 1#16⟩).block.elapsed.toNat <
        (playing 65534#32 65535#32 true ⟨1#16, 1#16⟩).block.activeDuration.toNat) ∧
    ((playing 0#32 0#32 true ⟨1#16, 1#16⟩).block.activeDuration.toNat ≤ 65535 ∧
      (playing 0#32 0#32 true ⟨1#16, 1#16⟩).block.activeDuration.toNat ≤ (playing 0#32 0#32 true ⟨1#16, 1#16⟩).block.elapsed.toNat ∧
      (playing 65540#32 65535#32 true ⟨1#16, 1#16⟩).block.activeDuration.toNat ≤
        (playing 65540#32 65535#32 true ⟨1#16, 1#16⟩).block.elapsed.toNat ∧
      (playing 65540#32 65535#32 true ⟨1#16, 1#16⟩).block.elapsed.toNat ≤
        (playing 65540#32 65535#32 true ⟨1#16, 1#16⟩).block.activeDuration.toNat + 5) ∧
    ((drained (playing 6#32 0#32 false ⟨1#16, 1#16⟩)).block.activeDuration.toNat + 5 <
        (drained (playing 6#32 0#32 false ⟨1#16, 1#16⟩)).block.elapsed.toNat ∧
      (drained (playing 6#32 0#32 false ⟨1#16, 1#16⟩)).block.writePos =
        (drained (playing 6#32 0#32 false ⟨1#16, 1#16⟩)).block.readPos) := by decide

/-- SampleTimeline: the last tick of the gap after a sample of duration 2. -/
theorem witness_SampleTimeline :
    (facing (playing 0#32 2#32 true ⟨1#16, 1#16⟩) (List.replicate 8 (.call [0x03#8]))).inbox =
        List.replicate 8 (.call [0x03#8]) ++ [] ∧ 0 < 8 ∧ 8 ≤ 2 + 6 ∧
    (playing 0#32 2#32 true ⟨1#16, 1#16⟩).reader ≠ .harness ∧ (playing 0#32 2#32 true ⟨1#16, 1#16⟩).block.elapsed = 0#32 ∧
    (playing 0#32 2#32 true ⟨1#16, 1#16⟩).block.activeDuration = BitVec.ofNat 32 2 := by decide

/-- IdleCycle: one cycle from reset. -/
theorem witness_IdleCycle :
    (facing State.reset (List.replicate 7 (.call [0x03#8]))).inbox = List.replicate (7 * 1) (.call [0x03#8]) ++ [] ∧
    State.reset.reader ≠ .harness ∧ State.reset.block.elapsed = 0#32 ∧ State.reset.block.activeDuration = 0#32 ∧
    State.reset.block.writePos = State.reset.block.readPos := by decide

/-- StartLatency: latency 7 from count 0 and latency 1 from count 6 (95 S4), and a run that is too short. -/
theorem witness_StartLatency :
    (facing (playing 0#32 0#32 false ⟨440#16, 100#16⟩) (List.replicate 7 (.call [0x03#8]))).inbox =
      List.replicate 7 (.call [0x03#8]) ++ [] ∧
    (playing 0#32 0#32 false ⟨440#16, 100#16⟩).block.elapsed = BitVec.ofNat 32 0 ∧ 7 = 7 - 0 ∧
    (playing 6#32 0#32 false ⟨440#16, 100#16⟩).block.elapsed = BitVec.ofNat 32 6 ∧ 1 = 7 - 6 ∧ 0 < 7 - 6 ∧ 6 < 7 - 0 ∧
    (playing 0#32 0#32 false ⟨440#16, 100#16⟩).reader ≠ .harness ∧
    (playing 0#32 0#32 false ⟨440#16, 100#16⟩).block.activeDuration = 0#32 ∧
    (playing 0#32 0#32 false ⟨440#16, 100#16⟩).block.writePos ≠ (playing 0#32 0#32 false ⟨440#16, 100#16⟩).block.readPos := by
  decide

/-- NoteEffect, CfgProgramsPeriod, PeriodRange, ClampAtCeiling: frequencies at the ends of each clause, and a step. -/
theorem witness_frequencies :
    (1#16 : Half) ≠ 0#16 ∧ (65535#16 : Half) ≠ 0#16 ∧ 10000 ≤ (10000#16 : Half).toNat ∧
    (4951 ≤ (4951#16 : Half).toNat ∧ (5000#16 : Half).toNat ≤ 5000) ∧
    (5001 ≤ (5001#16 : Half).toNat ∧ (5050#16 : Half).toNat ≤ 5050) ∧
    (nextOf (exec (.cfg 440#16) State.reset)).isSome = true := by decide

/-- FireTogglesLine: each of its clauses; FireCommutes: `FIRE` before an `ENQ`, and before a tick that leaves the generator
enabled. -/
theorem witness_fire :
    (playing 3#32 100#32 true ⟨1#16, 1#16⟩).block.genEn = true ∧ (playing 3#32 100#32 false ⟨1#16, 1#16⟩).block.genEn = false ∧
    ((nextOf (exec .fire (playing 3#32 100#32 true ⟨1#16, 1#16⟩))).bind fun t => nextOf (exec .fire t)).isSome = true ∧
    ((nextOf (exec .fire (playing 3#32 100#32 true ⟨1#16, 1#16⟩))).bind fun t => nextOf (exec (.enq 0#32 []) t)).isSome = true ∧
    ((nextOf (exec .fire (playing 3#32 100#32 true ⟨1#16, 1#16⟩))).bind fun t => nextOf (exec .tick t)).isSome = true ∧
    look (fun v => v.block.genEn) (exec .tick (playing 3#32 100#32 true ⟨1#16, 1#16⟩)) = some true := by decide

/-- TogglesPerTimebaseUnits: one unit of a running generator, and of a disabled one. -/
theorem witness_TogglesPerTimebaseUnits :
    (facing (playing 0#32 9#32 true ⟨1#16, 1#16⟩) [.usec]).inbox = List.replicate 1 .usec ++ [] ∧ 0 < 1 ∧
    (playing 0#32 9#32 true ⟨1#16, 1#16⟩).block.genEn = true ∧ (playing 0#32 9#32 true ⟨1#16, 1#16⟩).block.genCnt = 0#32 ∧
    0 < (playing 0#32 9#32 true ⟨1#16, 1#16⟩).block.genPeriod.toNat ∧
    (playing 0#32 9#32 false ⟨1#16, 1#16⟩).block.genEn = false := by decide

/-- NoteTogglesInTimedRefinement: a note of duration 0, with nothing to come after it. -/
theorem witness_NoteTogglesInTimedRefinement :
    ∃ s : State,
      s.inbox = (List.replicate (0 + 1) (List.replicate 1000 Event.usec ++ [.call [0x03#8]])).flatten ++ [] ∧
      s.reader ≠ .harness ∧ s.block.elapsed = 0#32 ∧ s.block.activeDuration = BitVec.ofNat 32 0 ∧
      s.block.genEn = true ∧ s.block.genCnt = 0#32 ∧ 0 < s.block.genPeriod.toNat :=
  ⟨facing (playing 0#32 0#32 true ⟨1#16, 1#16⟩)
    ((List.replicate (0 + 1) (List.replicate 1000 Event.usec ++ [.call [0x03#8]])).flatten ++ []),
    rfl, by decide, rfl, rfl, rfl, rfl, by decide⟩

/-- StartupKeepsFitting, StartupCallsAllAccepted: all 12 calls of `rev = 0xFF` on a queue of 6 samples, the most that fit. -/
theorem witness_StartupFits :
    (facing (queued 6#5 0#5 []) ((startupCalls 0xFF#8).map .startupEnq)).StartupFits ∧
    pendingCalls ((startupCalls 0xFF#8).map .startupEnq) ≠ [] ∧
    (queued 6#5 0#5 []).block.occupancy + 2 * (startupCalls 0xFF#8).length = 30 ∧
    (nextOf (step (facing (queued 6#5 0#5 []) ((startupCalls 0xFF#8).map .startupEnq)))).isSome = true := by
  unfold State.StartupFits; decide

/-- StartupExpandsFields, StartupCallsInterleave: calls in the order of 95 T1, no place left, and a schedule with a tick
between two calls. -/
theorem witness_StartupCallsInterleave :
    [0, 1, 1, 2, 2, 2] = List.replicate ((0x6C#8 : Byte).toNat / 64) (0 : Fin 4) ++
      (List.replicate ((0x6C#8 : Byte).toNat / 16 % 4) 1 ++
        (List.replicate ((0x6C#8 : Byte).toNat / 4 % 4) 2 ++ List.replicate ((0x6C#8 : Byte).toNat % 4) 3)) ∧
    pendingCalls [.startupTurn, .call [0x03#8], .startupTurn] = [] ∧
    Event.startupTurn ∉ [.startupEnq 0, .call [0x03#8], .startupEnq 1] := by decide

/-- GeneratorOffAtFetch: the invariant at a due fetch. -/
theorem witness_GeneratorOffAtFetch :
    (playing 6#32 0#32 false ⟨440#16, 100#16⟩).block.Inv ∧ (playing 6#32 0#32 false ⟨440#16, 100#16⟩).block.phase = .due :=
  ⟨⟨by decide, by decide, by decide, by decide, by decide, by decide, by decide, by decide, by decide, by decide⟩, by decide⟩

/-- RegistersHaveOneWriter: a step that moves the registers of each clause. -/
theorem witness_RegistersHaveOneWriter :
    look (fun t => decide (t.block.mem ≠ [] ∧ t.block.writePos ≠ 0#5))
      (exec (.enq 4#32 [0xB8#8, 0x01#8, 0x64#8, 0x00#8]) State.reset) = some true ∧
    look (fun t => decide (t.block.readPos ≠ 0#5 ∧ t.block.elapsed ≠ 6#32 ∧ t.block.genEn ≠ false))
      (exec .tick (playing 6#32 0#32 false ⟨440#16, 100#16⟩)) = some true ∧
    look (fun t => decide (t.block.out ≠ false)) (exec .fire (playing 3#32 9#32 true ⟨1#16, 1#16⟩)) = some true := by decide

end Sys2Proof.Tests
end

/-! PROOFS. 20_memory.md section 3: the slots that the queue's operations touch (R36). -/

namespace Sys2Proof.Machine

/-- `ENQ` is dispatched to its own meaning. -/
theorem exec_enq (length : Word) (buffer : List Byte) (s : State) :
    exec (.enq length buffer) s = execEnq length buffer s := rfl

/-- The oldest live sample stands at `read_pos`. -/
@[simp] theorem Block.slotAt_zero (b : Block) : b.slotAt 0 = b.readPos := by simp [Block.slotAt]

/-- A slot that has been written reads as what was written. -/
theorem Memory.read_of_lookup {m : Memory} {i : SlotIx} {x : Sample} (h : Memory.lookup m i.toNat = some x) :
    m.read i = x := by
  simp [Memory.read, h]

/-- Different cursors make `read_pos` a live slot, and the invariant says that every live slot has been written. -/
theorem Block.Inv.exists_lookup_readPos {b : Block} (hinv : b.Inv) (hne : b.writePos ≠ b.readPos) :
    ∃ x, Memory.lookup b.mem b.readPos.toNat = some x := by
  have hlive : 0 < b.occupancy := Nat.pos_of_ne_zero fun h0 => hne (b.occupancy_eq_zero.mp h0)
  have hwritten := hinv.liveWritten 0 hlive
  rw [Block.slotAt_zero] at hwritten
  exact Option.isSome_iff_exists.mp hwritten

/-- `DEQ` on different cursors returns what the slot at `read_pos` reads as. -/
theorem Block.dequeue_fst_of_ne {b : Block} (hne : b.writePos ≠ b.readPos) :
    b.dequeue.1 = some (b.mem.read b.readPos) := by
  obtain ⟨he, _⟩ | ⟨_, hd⟩ := b.dequeue_cases
  · exact absurd he hne
  · rw [hd]

/-- Settles O23: an `ENQ` that answers either changes nothing or stores a burst smaller than the free capacity, which
reaches no live slot. -/
theorem enqKeepsLiveSlots : Obligations.EnqKeepsLiveSlots := by
  intro s t length buffer h k hk
  rw [exec_enq] at h
  obtain ⟨_, ⟨_, rejected⟩ | ⟨_, _, _, hfits, stored⟩⟩ := execEnq_cases h
  · rw [rejected]
  · rw [stored]
    exact s.block.storeBurst_read_live _ hfits hk

/-- Settles O24: `read_pos` is a live slot, so the invariant gives it a written sample, and that is what `DEQ` reads. -/
theorem fetchedSlotWasWritten : Obligations.FetchedSlotWasWritten := by
  intro b hinv hne
  obtain ⟨x, hx⟩ := hinv.exists_lookup_readPos hne
  exact ⟨x, hx, by rw [Block.dequeue_fst_of_ne hne, Memory.read_of_lookup hx]⟩

end Sys2Proof.Machine

/-! PROOFS. 40_tone_queue.md section 3: the burst that is accepted or rejected (R61 to R69), and the invariant that every
step keeps (10_state.md R26). -/

namespace Sys2Proof.Machine

/-! ### Where a burst does not reach -/

/-- Going forward from slot `i` by its distance to slot `j` leads to `j`. -/
theorem Memory.add_distance (i j : SlotIx) : i + BitVec.ofNat 5 (Memory.distance i j) = j := by
  rw [Memory.distance, BitVec.ofNat_toNat, BitVec.setWidth_eq, BitVec.add_comm, BitVec.sub_add_cancel]

/-- A slot that is none of those written keeps what it reads as. -/
theorem Memory.read_writeBurst_other (m : Memory) {i j : SlotIx} {xs : List Sample} (hlen : xs.length ≤ 32)
    (hj : ∀ k < xs.length, j ≠ i + BitVec.ofNat 5 k) : (m.writeBurst i xs).read j = m.read j := by
  have hfar : ¬ Memory.distance i j < xs.length := fun h => hj _ h (Memory.add_distance i j).symm
  rw [Memory.read_writeBurst m i j xs hlen, dif_neg hfar]

/-- Every slot that had been written still is after a burst. -/
theorem Memory.isSome_lookup_writeBurst {m : Memory} (i : SlotIx) {j : SlotIx} {xs : List Sample} (hlen : xs.length ≤ 32)
    (hj : (Memory.lookup m j.toNat).isSome = true) : (Memory.lookup (m.writeBurst i xs) j.toNat).isSome = true := by
  rw [Memory.lookup_writeBurst m i j xs hlen]
  split
  · rfl
  · exact hj

/-! ### The free capacity -/

theorem Block.storeBurst_freeCapacity (b : Block) (xs : List Sample) (h : xs.length < b.freeCapacity) :
    (b.storeBurst xs).freeCapacity = b.freeCapacity - xs.length := by
  have hbefore := b.freeCapacity_add_occupancy
  have hafter := (b.storeBurst xs).freeCapacity_add_occupancy
  rw [b.storeBurst_occupancy xs h] at hafter
  omega

theorem Block.freeCapacity_le (b : Block) : b.freeCapacity ≤ 31 := Nat.sub_le _ _

theorem Block.freeCapacity_eq_max_iff (b : Block) : b.freeCapacity = 31 ↔ b.writePos = b.readPos := by
  rw [← b.occupancy_eq_zero]
  have := b.freeCapacity_add_occupancy
  omega

/-- At most 30 samples queued leave one slot that counts as free. -/
theorem Block.Inv.freeCapacity_pos {b : Block} (h : b.Inv) : 1 ≤ b.freeCapacity := by
  have := b.freeCapacity_add_occupancy
  have := h.occupancyBound
  omega

/-! ### The checks of `ENQ` -/

theorem Block.enqResult_eq_ok_iff (b : Block) (length : Word) :
    b.enqResult length = .ok ↔ length.toNat % 4 = 0 ∧ length.toNat / 4 < b.freeCapacity := by
  rw [Block.enqResult_eq]
  split_ifs with h4 hfull
  · exact ⟨nofun, fun h => absurd h.1 h4⟩
  · exact ⟨nofun, fun h => absurd h.2 (Nat.not_lt.mpr hfull)⟩
  · exact ⟨fun _ => ⟨not_not.mp h4, Nat.lt_of_not_le hfull⟩, fun _ => rfl⟩

theorem Block.enqResult_eq_queueFull {b : Block} {length : Word} (h4 : length.toNat % 4 = 0)
    (hfull : b.freeCapacity ≤ length.toNat / 4) : b.enqResult length = .queueFull := by
  rw [Block.enqResult_eq, if_neg (not_not.mpr h4), if_pos hfull]

section Enq
variable {length : Word} {buffer : List Byte} {s : State}

/-- A rejected `ENQ` changes nothing. -/
theorem exec_enq_rejected (hlen : buffer.length = length.toNat) (hr : s.block.enqResult length ≠ .ok) :
    exec (.enq length buffer) s = .next s := by
  obtain ⟨_, ⟨_, hb⟩ | ⟨hok, _⟩⟩ := s.block.enqueue_cases length buffer hlen
  · rw [exec_enq, execEnq_eq s hlen, hb]
  · exact absurd hok hr

/-- An accepted `ENQ` stores its burst. -/
theorem exec_enq_accepted (hlen : buffer.length = length.toNat) (hr : s.block.enqResult length = .ok) :
    exec (.enq length buffer) s = .next { s with block := s.block.storeBurst (samplesOf buffer) } := by
  obtain ⟨_, ⟨hne, _⟩ | ⟨_, _, _, _, hb⟩⟩ := s.block.enqueue_cases length buffer hlen
  · exact absurd hr hne
  · rw [exec_enq, execEnq_eq s hlen, hb]

/-- A burst not smaller than the free capacity: nothing changes, and the answer is `QUEUE_FULL`. -/
theorem enq_queueFull (hlen : buffer.length = length.toNat) (h4 : length.toNat % 4 = 0)
    (hfull : s.block.freeCapacity ≤ length.toNat / 4) :
    exec (.enq length buffer) s = .next s ∧ reply (.enq length buffer) s = .enqueued .queueFull := by
  have hr := Block.enqResult_eq_queueFull h4 hfull
  exact ⟨exec_enq_rejected hlen (by rw [hr]; decide), by rw [reply_enq s hlen, hr]⟩

theorem reply_enq_ok_iff (hlen : buffer.length = length.toNat) :
    reply (.enq length buffer) s = .enqueued .ok ↔
      length.toNat % 4 = 0 ∧ length.toNat / 4 < s.block.freeCapacity := by
  rw [reply_enq s hlen, Reply.enqueued.injEq, Block.enqResult_eq_ok_iff]

end Enq

/-! ### The statements about one `ENQ` or `FREECAP` -/

/-- Settles O49: the live samples are the occupied slots, and 31 slots are occupied or free. -/
theorem queueBounds : Obligations.QueueBounds := fun b hinv =>
  ⟨b.live_length, hinv.occupancyBound, hinv.freeCapacity_pos, b.freeCapacity_le⟩

/-- Settles O17: each premise makes a check of `ENQ` fail, and a rejection changes nothing. -/
theorem rejectionChangesNothing : Obligations.RejectionChangesNothing := by
  intro s length buffer hlen hbad
  have hr : s.block.enqResult length ≠ .ok := by
    rw [Ne, Block.enqResult_eq_ok_iff]
    omega
  exact ⟨exec_enq_rejected hlen hr, _, hr, reply_enq s hlen⟩

/-- Settles O18: the burst is stored, which takes its count from the free capacity and reaches its own slots only. -/
theorem successLowersFreeCapacity : Obligations.SuccessLowersFreeCapacity := by
  intro s length buffer hlen h4 hlt
  have hcount : (samplesOf buffer).length = length.toNat / 4 := by rw [samplesOf_length, hlen]
  have hfree := s.block.storeBurst_freeCapacity (samplesOf buffer) (hcount ▸ hlt)
  rw [hcount] at hfree
  have hpos : 1 ≤ (s.block.storeBurst (samplesOf buffer)).freeCapacity := by omega
  refine ⟨_, exec_enq_accepted hlen ((s.block.enqResult_eq_ok_iff length).mpr ⟨h4, hlt⟩),
    (reply_enq_ok_iff hlen).mpr ⟨h4, hlt⟩, hfree, hpos, by rw [reply_freecap, hfree], rfl, fun j hj => ?_⟩
  have hle := s.block.freeCapacity_le
  exact s.block.mem.read_writeBurst_other (by omega) (hcount ▸ hj)

/-- Settles O19: the empty burst is smaller than the free capacity wherever there is one, and storing it writes nothing. -/
theorem zeroLengthSucceeds : Obligations.ZeroLengthSucceeds := by
  intro s
  have hok : 1 ≤ s.block.freeCapacity → reply (.enq 0#32 []) s = .enqueued .ok := fun h =>
    (reply_enq_ok_iff rfl).mpr ⟨rfl, h⟩
  refine ⟨?_, hok, fun hinv => hok hinv.freeCapacity_pos, fun h0 => (enq_queueFull rfl rfl h0.le).2⟩
  by_cases hr : s.block.enqResult 0#32 = .ok
  · have hsame : s.block.storeBurst (samplesOf []) = s.block := by
      simp [Block.storeBurst, samplesOf, Memory.writeBurst]
    rw [exec_enq_accepted rfl hr, hsame]
  · exact exec_enq_rejected rfl hr

/-- Settles O20: the free capacity is at most 31, and 31 exactly on equal cursors. -/
theorem oversizeBurstRejected : Obligations.OversizeBurstRejected := by
  intro s length buffer hlen h4
  have hle := s.block.freeCapacity_le
  refine ⟨fun hbig => enq_queueFull hlen h4 (by omega), fun h120 => ?_⟩
  rw [reply_enq_ok_iff hlen, ← s.block.freeCapacity_eq_max_iff]
  omega

/-- Settles O13: `FREECAP` answers the capacity that the second check of `ENQ` compares with. -/
theorem freecapReturnsFreeCapacity : Obligations.FreecapReturnsFreeCapacity := by
  intro s
  simp only [← Block.freeCapacity_eq]
  refine ⟨rfl, rfl, fun heq => ?_, fun hinv h0 => ?_, fun length buffer hlen => ⟨fun hF => ?_, fun hF => ?_⟩⟩
  · rw [reply_freecap, s.block.freeCapacity_eq_max_iff.mpr heq]
  · have hpos := hinv.freeCapacity_pos
    have hle := s.block.freeCapacity_le
    rw [reply_freecap, Reply.freeCapacity.injEq, ← BitVec.toNat_inj, BitVec.toNat_ofNat, BitVec.toNat_ofNat] at h0
    omega
  · exact enq_queueFull hlen (by omega) (by omega)
  · have hfits : length.toNat % 4 = 0 ∧ length.toNat / 4 < s.block.freeCapacity := by omega
    exact ⟨⟨_, exec_enq_accepted hlen ((s.block.enqResult_eq_ok_iff length).mpr hfits)⟩,
      (reply_enq_ok_iff hlen).mpr hfits⟩

/-! ### The invariant, in two parts

An operation of the queue moves the buffer and the cursors only, and one of the generator none of them; so each part of the
invariant is kept by itself. -/

/-- The clauses of `Block.Inv` about the buffer and the cursors. -/
structure Block.QueueInv (b : Block) : Prop where
  memWf : b.mem.wf = true
  occupancyBound : b.occupancy ≤ 30
  liveWritten : ∀ k < b.occupancy, (Memory.lookup b.mem (b.slotAt k).toNat).isSome = true

/-- The clauses of `Block.Inv` about the scheduler's pair and the generator. -/
structure Block.PlaybackInv (b : Block) : Prop where
  durationBound : b.activeDuration.toNat ≤ 65535
  elapsedBound : b.elapsed.toNat ≤ b.activeDuration.toNat + 6
  periodRange : b.genPeriod = 0#32 ∨ 50 ≤ b.genPeriod.toNat ∧ b.genPeriod.toNat ≤ 500000
  enabledPeriod : b.genEn = true → b.genPeriod ≠ 0#32
  enabledSounding : b.genEn = true → b.elapsed.toNat ≤ b.activeDuration.toNat
  counterRange : b.genCnt.toNat ≤ b.genPeriod.toNat
  enabledCounter : b.genEn = true → b.genCnt.toNat < b.genPeriod.toNat

theorem Block.inv_iff (b : Block) : b.Inv ↔ b.QueueInv ∧ b.PlaybackInv :=
  ⟨fun ⟨hm, ho, hl, hd, he, hp, hep, hes, hc, hec⟩ => ⟨⟨hm, ho, hl⟩, ⟨hd, he, hp, hep, hes, hc, hec⟩⟩,
    fun ⟨⟨hm, ho, hl⟩, ⟨hd, he, hp, hep, hes, hc, hec⟩⟩ => ⟨hm, ho, hl, hd, he, hp, hep, hes, hc, hec⟩⟩

/-! ### The part of the queue -/

/-- It depends on the buffer and the cursors alone. -/
theorem Block.QueueInv.congr {b c : Block} (h : b.QueueInv) (hm : c.mem = b.mem) (hw : c.writePos = b.writePos)
    (hr : c.readPos = b.readPos) : c.QueueInv where
  memWf := hm ▸ h.memWf
  occupancyBound := Block.occupancy_congr hw hr ▸ h.occupancyBound
  liveWritten k hk := by
    rw [Block.occupancy_congr hw hr] at hk
    simpa only [Block.slotAt, hm, hr] using h.liveWritten k hk

@[simp] theorem Block.initialise_occupancy (b : Block) : b.initialise.occupancy = 0 :=
  b.initialise.occupancy_eq_zero.mpr rfl

/-- `RESET` leaves no live slot. -/
theorem Block.QueueInv.initialise {b : Block} (h : b.QueueInv) : b.initialise.QueueInv where
  memWf := h.memWf
  occupancyBound := by simp
  liveWritten k hk := by simp at hk

/-- The slots that become live by a burst have been written by it. -/
theorem Block.QueueInv.storeBurst {b : Block} (h : b.QueueInv) {xs : List Sample} (hlt : xs.length < b.freeCapacity) :
    (b.storeBurst xs).QueueInv where
  memWf := Memory.wf_writeBurst _ _ h.memWf
  occupancyBound := by
    have := b.freeCapacity_add_occupancy
    rw [b.storeBurst_occupancy xs hlt]
    omega
  liveWritten k hk := by
    have hcap := b.freeCapacity_add_occupancy
    rw [b.storeBurst_occupancy xs hlt] at hk
    change (Memory.lookup (b.mem.writeBurst b.writePos xs) (b.slotAt k).toNat).isSome = true
    by_cases hold : k < b.occupancy
    · exact Memory.isSome_lookup_writeBurst _ (by omega) (h.liveWritten k hold)
    · have hnew : Memory.distance b.writePos (b.slotAt k) < xs.length := by
        rw [b.distance_slotAt k (by omega)]
        omega
      rw [Memory.lookup_writeBurst _ _ _ _ (by omega), dif_pos hnew]
      rfl

theorem Block.occupancy_advance {b : Block} (hne : b.writePos ≠ b.readPos) :
    ({ b with readPos := b.readPos + 1#5 } : Block).occupancy + 1 = b.occupancy := by
  have hlen := congrArg List.length (b.live_cons hne)
  simpa using hlen.symm

theorem Block.slotAt_advance (b : Block) (k : Nat) :
    ({ b with readPos := b.readPos + 1#5 } : Block).slotAt k = b.slotAt (k + 1) := by
  simp only [Block.slotAt, BitVec.ofNat_add, BitVec.add_assoc, BitVec.add_comm (1#5)]

/-- The slots that stay live when the oldest sample is taken were live before. -/
theorem Block.QueueInv.advance {b : Block} (h : b.QueueInv) (hne : b.writePos ≠ b.readPos) :
    ({ b with readPos := b.readPos + 1#5 } : Block).QueueInv where
  memWf := h.memWf
  occupancyBound := by
    have := Block.occupancy_advance hne
    have := h.occupancyBound
    omega
  liveWritten k hk := by
    have := Block.occupancy_advance hne
    rw [Block.slotAt_advance]
    exact h.liveWritten (k + 1) (by omega)

theorem Block.QueueInv.dequeue {b : Block} (h : b.QueueInv) : b.dequeue.2.QueueInv := by
  obtain ⟨_, hd⟩ | ⟨hne, hd⟩ := b.dequeue_cases <;> rw [hd]
  · exact h
  · exact h.advance hne

theorem Block.QueueInv.startSample {b : Block} (h : b.QueueInv) (x : Sample) : (b.startSample x).QueueInv := by
  obtain ⟨hm, hw, hr, _⟩ := b.configure_frame x.freq
  exact h.congr hm hw hr

theorem Block.QueueInv.tick {b : Block} (h : b.QueueInv) : b.tick.QueueInv := by
  obtain ⟨_, ht⟩ | ⟨_, ht⟩ | ⟨_, _, ht⟩ | ⟨_, hne, ht⟩ := b.tick_cases <;> rw [ht]
  · exact h.congr rfl rfl rfl
  · exact h.congr rfl rfl rfl
  · exact h.congr rfl rfl rfl
  · exact (h.advance hne).startSample _

theorem Block.QueueInv.usec {b : Block} (h : b.QueueInv) : b.usec.QueueInv := by
  obtain ⟨_, hu⟩ | ⟨_, _, hu⟩ | ⟨_, _, hu⟩ := b.usec_cases <;> rw [hu]
  · exact h
  · exact h.congr rfl rfl rfl
  · exact h.congr rfl rfl rfl

/-! ### The part of the scheduler and the generator -/

/-- It depends on the pair and the generator's registers alone. -/
theorem Block.PlaybackInv.congr {b c : Block} (h : b.PlaybackInv) (he : c.elapsed = b.elapsed)
    (hd : c.activeDuration = b.activeDuration) (hg : c.genEn = b.genEn) (hp : c.genPeriod = b.genPeriod)
    (hc : c.genCnt = b.genCnt) : c.PlaybackInv := by
  obtain ⟨_, _, _, _, _, _, _⟩ := h
  constructor <;> simpa only [he, hd, hg, hp, hc]

/-- Switched off, the generator leaves only the ranges of the pair to check. -/
theorem Block.PlaybackInv.switchedOff {b c : Block} (h : b.PlaybackInv) (hg : c.genEn = false)
    (hp : c.genPeriod = b.genPeriod) (hc : c.genCnt = b.genCnt) (hd : c.activeDuration.toNat ≤ 65535)
    (he : c.elapsed.toNat ≤ c.activeDuration.toNat + 6) : c.PlaybackInv where
  durationBound := hd
  elapsedBound := he
  periodRange := hp ▸ h.periodRange
  enabledPeriod hon := absurd (hg ▸ hon) Bool.false_ne_true
  enabledSounding hon := absurd (hg ▸ hon) Bool.false_ne_true
  counterRange := by rw [hp, hc]; exact h.counterRange
  enabledCounter hon := absurd (hg ▸ hon) Bool.false_ne_true

theorem Block.PlaybackInv.initialise (b : Block) : b.initialise.PlaybackInv := by
  constructor <;> simp

/-- The count of ticks does not wrap. -/
theorem Block.PlaybackInv.countTick_elapsed_toNat {b : Block} (h : b.PlaybackInv) :
    b.countTick.elapsed.toNat = b.elapsed.toNat + 1 := by
  have := h.durationBound
  have := h.elapsedBound
  rw [Block.countTick_elapsed, BitVec.toNat_add, BitVec.toNat_ofNat]
  omega

/-- A tick before the end of the sample leaves the generator as it is. -/
theorem Block.PlaybackInv.countTick {b : Block} (h : b.PlaybackInv) (hlt : b.elapsed.toNat < b.activeDuration.toNat) :
    b.countTick.PlaybackInv where
  durationBound := h.durationBound
  elapsedBound := by rw [h.countTick_elapsed_toNat, Block.countTick_activeDuration]; omega
  periodRange := h.periodRange
  enabledPeriod := h.enabledPeriod
  enabledSounding _ := by rw [h.countTick_elapsed_toNat, Block.countTick_activeDuration]; omega
  counterRange := h.counterRange
  enabledCounter := h.enabledCounter

/-- A fetched sample restarts the count, with a duration of 16 bits; a note has a period in range and a counter at 0. -/
theorem Block.PlaybackInv.startSample {b : Block} (h : b.PlaybackInv) (x : Sample) : (b.startSample x).PlaybackInv := by
  have hdur : (b.startSample x).activeDuration.toNat ≤ 65535 := by
    have := x.dur.isLt
    simp only [Block.startSample_activeDuration, BitVec.toNat_setWidth]
    omega
  obtain ⟨_, hcfg⟩ | ⟨hf, hcfg⟩ := b.configure_cases x.freq
  · exact h.switchedOff (by simp [hcfg]) (by simp [hcfg]) (by simp [hcfg]) hdur (Nat.zero_le _)
  · have hrange := togglePeriod_range x.freq hf
    have hperiod : (b.startSample x).genPeriod = togglePeriod x.freq := by simp [hcfg]
    have hcnt : (b.startSample x).genCnt = 0#32 := by simp [hcfg]
    exact {
      durationBound := hdur
      elapsedBound := Nat.zero_le _
      periodRange := .inr (hperiod ▸ hrange)
      enabledPeriod := fun _ h0 => by
        rw [← hperiod, h0] at hrange
        exact absurd hrange.1 (by decide)
      enabledSounding := fun _ => Nat.zero_le _
      counterRange := by rw [hcnt]; exact Nat.zero_le _
      enabledCounter := fun _ => by rw [hcnt, hperiod]; exact Nat.lt_of_lt_of_le (by decide) hrange.1 }

/-- A sounding tick only counts; in the gap or on an empty queue the generator goes off; otherwise a sample starts. -/
theorem Block.PlaybackInv.tick {b : Block} (h : b.PlaybackInv) : b.tick.PlaybackInv := by
  have hphase := b.phase_eq h.durationBound
  obtain ⟨hp, ht⟩ | ⟨hp, ht⟩ | ⟨_, _, ht⟩ | ⟨_, _, ht⟩ := b.tick_cases <;> rw [ht]
  · rw [hphase] at hp
    split_ifs at hp with hsounding
    exact h.countTick hsounding
  · rw [hphase] at hp
    split_ifs at hp with _ hgap
    have helapsed : b.generatorOff.countTick.elapsed.toNat = b.elapsed.toNat + 1 := h.countTick_elapsed_toNat
    exact h.switchedOff rfl rfl rfl h.durationBound (helapsed ▸ Nat.succ_le_succ hgap)
  · exact h.switchedOff rfl rfl rfl (Nat.zero_le _) (Nat.zero_le _)
  · have hadvanced : ({ b with readPos := b.readPos + 1#5 } : Block).PlaybackInv := h.congr rfl rfl rfl rfl rfl
    exact hadvanced.startSample _

theorem Block.PlaybackInv.dequeue {b : Block} (h : b.PlaybackInv) : b.dequeue.2.PlaybackInv := by
  obtain ⟨_, hd⟩ | ⟨_, hd⟩ := b.dequeue_cases <;> rw [hd]
  · exact h
  · exact h.congr rfl rfl rfl rfl rfl

/-- The counter that has reached the period goes back to 0; one that has not stays below it. -/
theorem Block.PlaybackInv.usec {b : Block} (h : b.PlaybackInv) : b.usec.PlaybackInv := by
  obtain ⟨_, hu⟩ | ⟨hon, _, hu⟩ | ⟨hon, hne, hu⟩ := b.usec_cases <;> rw [hu]
  · exact h
  · have hpos := h.enabledCounter hon
    exact { h with
      counterRange := Nat.zero_le _
      enabledCounter := fun _ => Nat.zero_lt_of_lt hpos }
  · have hlt : (b.genCnt + 1#32).toNat < b.genPeriod.toNat := by
      have := h.enabledCounter hon
      have := b.genPeriod.isLt
      rw [Ne, ← BitVec.toNat_inj] at hne
      rw [BitVec.toNat_add, BitVec.toNat_ofNat] at hne ⊢
      omega
    exact { h with
      counterRange := hlt.le
      enabledCounter := fun _ => hlt }

/-! ### Every step -/

/-- Settles O48: each of the things a step can do to the block keeps both parts of the invariant. -/
theorem stepKeepsInvariant : Obligations.StepKeepsInvariant := by
  intro s t hinv hstep
  rw [Block.inv_iff] at hinv ⊢
  obtain ⟨hq, hp⟩ := hinv
  obtain hb | hb | ⟨xs, hlt, hb⟩ | hb | ⟨_, hb⟩ | hb | hb := step_block_cases hstep <;> rw [hb]
  · exact ⟨hq, hp⟩
  · exact ⟨hq.initialise, .initialise _⟩
  · exact ⟨hq.storeBurst hlt, hp.congr rfl rfl rfl rfl rfl⟩
  · exact ⟨hq.tick, hp.tick⟩
  · exact ⟨hq.congr rfl rfl rfl, hp.congr rfl rfl rfl rfl rfl⟩
  · exact ⟨hq.dequeue, hp.dequeue⟩
  · exact ⟨hq.usec, hp.usec⟩

end Sys2Proof.Machine

/-! PROOFS. 41_playback_scheduler.md section 1: the branches of `TICK` (R71, R73). -/

namespace Sys2Proof.Machine

/-- `TICK` always answers, and writes the block alone. -/
theorem exec_tick (s : State) : exec .tick s = .next { s with block := s.block.tick } := rfl

/-! ### The branch that a phase selects -/

theorem Block.tick_of_sounding {b : Block} (h : b.phase = .sounding) : b.tick = b.countTick := by
  simp only [Block.tick, h]

theorem Block.tick_of_due_empty {b : Block} (h : b.phase = .due) (hempty : b.writePos = b.readPos) :
    b.tick = b.goIdle := by
  obtain ⟨hp, _⟩ | ⟨hp, _⟩ | ⟨_, _, ht⟩ | ⟨_, hne, _⟩ := b.tick_cases
  · exact nomatch h.symm.trans hp
  · exact nomatch h.symm.trans hp
  · exact ht
  · exact absurd hempty hne

/-! ### The phase, from the pair in numbers -/

/-- The first comparison of `TICK` has no sum in it, so it needs no bound on the duration. -/
theorem Block.phase_eq_sounding {b : Block} (h : b.elapsed.toNat < b.activeDuration.toNat) : b.phase = .sounding :=
  if_pos (BitVec.lt_def.mpr h)

theorem Block.phase_eq_due {b : Block} (hd : b.activeDuration.toNat ≤ 65535)
    (h : b.activeDuration.toNat + 5 < b.elapsed.toNat) : b.phase = .due := by
  rw [b.phase_eq hd, if_neg (by omega), if_neg (by omega)]

/-! ### What a branch writes -/

/-- The count of ticks as a number; at 32 bits the sum is taken `mod 2 ^ 32` on both sides. -/
theorem Block.countTick_eq (b : Block) :
    b.countTick = { b with elapsed := BitVec.ofNat 32 (b.elapsed.toNat + 1) } := by
  rw [BitVec.ofNat_add, BitVec.ofNat_toNat, BitVec.setWidth_eq, Block.countTick]

/-- Switching the generator off is one HAL call, and the idle pair is all that is written beside it. -/
theorem Block.goIdle_eq (b : Block) :
    b.goIdle = { b with
      elapsed := 0#32
      activeDuration := 0#32
      genEn := false
      halTrace := b.halTrace ++ [.disablePeriodicInterrupt] } := rfl

/-! ### The statements about one `TICK` -/

/-- Settles O26: the pair selects branch 1, which counts one tick. -/
theorem tickWhileSounding : Obligations.TickWhileSounding := by
  intro s h
  rw [exec_tick, Block.tick_of_sounding (Block.phase_eq_sounding h), Block.countTick_eq]

/-- Settles O28: the pair selects branch 3, and on equal cursors that branch goes idle. -/
theorem tickFindsQueueEmpty : Obligations.TickFindsQueueEmpty := by
  intro s hd h hempty
  rw [exec_tick, Block.tick_of_due_empty (Block.phase_eq_due hd h) hempty, Block.goIdle_eq]

end Sys2Proof.Machine

/-! PROOFS. 42_square_wave_generator.md section 1: what `CFG` writes (R80, R89). -/

namespace Sys2Proof.Machine

/-- `CFG` always answers, and writes the block alone. -/
theorem exec_cfg (f : Half) (s : State) : exec (.cfg f) s = .next { s with block := s.block.configure f } := rfl

/-- The block that a `CFG` leaves. -/
theorem block_of_exec_cfg {f : Half} {s t : State} (h : exec (.cfg f) s = .next t) :
    t.block = s.block.configure f := by
  rw [exec_cfg, Host.Outcome.next.injEq] at h
  rw [← h]

/-! ### The two cases of `CFG` -/

/-- Switching the generator off is one HAL call, which writes `GEN_EN` and no other register. -/
theorem Block.generatorOff_eq (b : Block) :
    b.generatorOff = { b with
      genEn := false
      halTrace := b.halTrace ++ [.disablePeriodicInterrupt] } := rfl

theorem Block.configure_zero (b : Block) : b.configure 0#16 = b.generatorOff := by
  obtain ⟨_, hoff⟩ | ⟨hne, _⟩ := b.configure_cases 0#16
  · exact hoff
  · exact absurd rfl hne

theorem Block.configure_of_ne_zero (b : Block) {f : Half} (hf : f ≠ 0#16) :
    b.configure f = { b with
      genCnt := 0#32
      genPeriod := togglePeriod f
      genEn := true
      halTrace := b.halTrace ++ [.configurePeriodicSource (togglePeriod f), .enablePeriodicInterrupt] } := by
  obtain ⟨h0, _⟩ | ⟨_, hon⟩ := b.configure_cases f
  · exact absurd h0 hf
  · exact hon

/-! ### From the ceiling up -/

/-- The clamp leaves 10000 of every frequency that is not below it. -/
theorem togglePeriod_of_ceiling {f : Half} (hf : 10000 ≤ f.toNat) : togglePeriod f = togglePeriod 10000#16 := by
  have hclamp : min f.toNat 10000 = min (10000#16 : Half).toNat 10000 := Nat.min_eq_right hf
  rw [← BitVec.toNat_inj, togglePeriod_toNat, togglePeriod_toNat, hclamp]

/-- A note's frequency reaches the block through its period only. -/
theorem Block.configure_of_ceiling (b : Block) {f : Half} (hf : 10000 ≤ f.toNat) :
    b.configure f = b.configure 10000#16 := by
  have hne : f ≠ 0#16 := by
    rintro rfl
    exact absurd hf (by decide)
  rw [b.configure_of_ne_zero hne, b.configure_of_ne_zero (by decide), togglePeriod_of_ceiling hf]

/-! ### The statements about `CFG` -/

/-- Settles O35: at frequency 0, `CFG` is the one HAL call that switches the generator off. -/
theorem cfgZeroDisables : Obligations.CfgZeroDisables := by
  intro s
  rw [exec_cfg, Block.configure_zero, Block.generatorOff_eq]

/-- Settles O38: the clamp makes the periods equal, the buffer is in the frame of `CFG`, and the clamped frequency bounds
the period from below. -/
theorem clampAtCeiling : Obligations.ClampAtCeiling := by
  refine ⟨fun f s hf => ?_, fun f s t h => ?_, fun f s t hf h => ?_⟩
  · rw [exec_cfg, exec_cfg, Block.configure_of_ceiling _ hf]
  · obtain ⟨hmem, _⟩ := s.block.configure_frame f
    rw [block_of_exec_cfg h, hmem]
  · rw [block_of_exec_cfg h, Block.configure_of_ne_zero _ hf]
    exact (togglePeriod_range f hf).1

end Sys2Proof.Machine

/-! PROOFS. 43_startup_sequencer.md: the calls a `STARTUP` expands into (R90, R91), how each is taken or dropped (R92, R93),
and where they fall among the other events (R94). -/

namespace Sys2Proof.Machine

/-! ### One call -/

/-- `STARTUP` is dispatched to its own meaning. -/
theorem exec_startup (rev : Byte) (s : State) :
    exec (.startup rev) s = .next { s with inbox := scheduleCalls (startupCalls rev) s.inbox } := rfl

/-- The bytes of a sample decode to it. -/
theorem samplesOf_bytesOfSample_append (x : Sample) (bytes : List Byte) :
    samplesOf (bytesOfSample x ++ bytes) = x :: samplesOf bytes := by
  simp [samplesOf, bytesOfSample, bytesOfHalf, sampleOfBytes_bytes]

/-- The 8 bytes of a call hold the tone and the silence of one repetition. -/
theorem samplesOf_startupBurst (k : Fin 4) : samplesOf (startupBurst k) = repetition k := by
  rw [startupBurst, samplesOf_bytesOfSample_append, ← List.append_nil (bytesOfSample ⟨0#16, Config.restMs⟩),
    samplesOf_bytesOfSample_append]
  rfl

@[simp] theorem repetition_length (k : Fin 4) : (repetition k).length = 2 := rfl

/-- The 8 bytes are two samples, and a burst is accepted only below the free capacity. -/
theorem Block.enqResult_startupBurst_eq_ok_iff (b : Block) : b.enqResult 8#32 = .ok ↔ 2 < b.freeCapacity := by
  simp [Block.enqResult_eq_ok_iff]

section OneCall
variable {s : State} {k : Fin 4} {rest : List Event}

/-- A call of a `STARTUP` runs `ENQ` on the 8 bytes of one repetition. -/
theorem step_startupEnq_eq_exec (hi : s.inbox = .startupEnq k :: rest) :
    step s = exec (.enq 8#32 (startupBurst k)) { s with inbox := rest } :=
  step_event hi

/-- With at most two free slots the repetition is dropped (R92). -/
theorem step_startupEnq_dropped (hi : s.inbox = .startupEnq k :: rest) (hfull : s.block.freeCapacity ≤ 2) :
    step s = .next { s with inbox := rest } := by
  rw [step_startupEnq_eq_exec hi]
  refine exec_enq_rejected (startupBurst_length k) fun hok => ?_
  exact absurd ((Block.enqResult_startupBurst_eq_ok_iff _).mp hok) (Nat.not_lt.mpr hfull)

/-- With more than two free slots the repetition is stored (R91). -/
theorem step_startupEnq_stored (hi : s.inbox = .startupEnq k :: rest) (hroom : 2 < s.block.freeCapacity) :
    step s = .next { s with inbox := rest, block := s.block.storeBurst (repetition k) } := by
  rw [step_startupEnq_eq_exec hi, ← samplesOf_startupBurst]
  exact exec_enq_accepted (startupBurst_length k) ((Block.enqResult_startupBurst_eq_ok_iff _).mpr hroom)

end OneCall

/-- Settles O10: the call runs `ENQ` on the 8 bytes of one repetition, and it is stored or dropped. -/
theorem startupCallIsOrdinaryEnq : Obligations.StartupCallIsOrdinaryEnq := fun _ _ _ hi =>
  ⟨step_startupEnq_eq_exec hi, ⟨_, step_startupEnq hi⟩, step_startupEnq_dropped hi⟩

/-! ### The calls of a revision byte -/

/-- Field `k` of the revision byte in plain arithmetic. -/
theorem revField_toNat (rev : Byte) (k : Fin 4) : (revField rev k).toNat = rev.toNat / 2 ^ (6 - 2 * k.val) % 4 := by
  rw [revField, BitVec.extractLsb'_toNat, Nat.shiftRight_eq_div_pow]

theorem startupCalls_eq (rev : Byte) :
    startupCalls rev = List.replicate (rev.toNat / 64) 0 ++ (List.replicate (rev.toNat / 16 % 4) 1 ++
      (List.replicate (rev.toNat / 4 % 4) 2 ++ List.replicate (rev.toNat % 4) 3)) := by
  have htop : rev.toNat / 64 % 4 = rev.toNat / 64 := Nat.mod_eq_of_lt (by have := rev.isLt; omega)
  simp [startupCalls, revField_toNat, htop]

/-- Settles O44: the fields are the quarters of the byte, and without a place left to the producer the calls come at once. -/
theorem startupExpandsFields : Obligations.StartupExpandsFields := by
  rintro rev s calls rfl
  rw [← startupCalls_eq, exec_startup]
  exact ⟨rfl, fun hturn => by rw [scheduleCalls_no_turn _ hturn]⟩

/-! ### The calls that fit, taken one after the other -/

theorem Memory.writeBurst_append (m : Memory) (i : SlotIx) (xs ys : List Sample) :
    m.writeBurst i (xs ++ ys) = (m.writeBurst i xs).writeBurst (i + BitVec.ofNat 5 xs.length) ys := by
  induction xs generalizing m i with
  | nil => simp [Memory.writeBurst]
  | cons x xs ih =>
    have hpos : i + 1#5 + BitVec.ofNat 5 xs.length = i + BitVec.ofNat 5 (xs.length + 1) := by
      rw [BitVec.add_assoc, BitVec.add_comm 1#5, ← BitVec.ofNat_add]
    rw [List.cons_append, Memory.writeBurst, Memory.writeBurst, ih, hpos, List.length_cons]

@[simp] theorem Block.storeBurst_nil (b : Block) : b.storeBurst [] = b := by
  simp [Block.storeBurst, Memory.writeBurst]

/-- Two bursts stored one after the other are one burst. -/
theorem Block.storeBurst_append (b : Block) (xs ys : List Sample) :
    b.storeBurst (xs ++ ys) = (b.storeBurst xs).storeBurst ys := by
  simp only [Block.storeBurst, Memory.writeBurst_append, List.length_append, BitVec.ofNat_add, BitVec.add_assoc]

theorem flatMap_repetition_length (calls : List (Fin 4)) : (calls.flatMap repetition).length = 2 * calls.length := by
  simp [List.length_flatMap, Nat.mul_comm]

/-- Calls that all fit store their repetitions as one burst. -/
theorem runSteps_startupEnq (calls : List (Fin 4)) {s : State} {rest : List Event}
    (hi : s.inbox = calls.map .startupEnq ++ rest) (hfit : s.block.occupancy + 2 * calls.length ≤ 30) :
    runSteps calls.length s =
      .next { s with inbox := rest, block := s.block.storeBurst (calls.flatMap repetition) } := by
  induction calls generalizing s with
  | nil =>
    have hrest : rest = s.inbox := hi.symm
    simp [hrest]
  | cons k calls ih =>
    rw [List.length_cons] at hfit
    have hroom : 2 < s.block.freeCapacity := by
      have := s.block.freeCapacity_add_occupancy
      omega
    have hocc := s.block.storeBurst_occupancy (repetition k) hroom
    rw [repetition_length] at hocc
    rw [List.length_cons, runSteps_succ _ (step_startupEnq_stored hi hroom), ih rfl (by simp only [hocc]; omega),
      List.flatMap_cons, Block.storeBurst_append]

/-- Settles O46: the calls store one burst of two samples each, which is smaller than the free capacity. -/
theorem startupCallsAllAccepted : Obligations.StartupCallsAllAccepted := by
  intro s calls rest hi hfit
  have hrun := runSteps_startupEnq calls hi hfit
  have hcount := flatMap_repetition_length calls
  have hfree := s.block.freeCapacity_add_occupancy
  have hlive := s.block.storeBurst_live (calls.flatMap repetition) (by omega)
  rw [Block.storeBurst, hcount] at hrun hlive
  refine ⟨_, hrun, hlive, fun j hj => ?_⟩
  exact s.block.mem.read_writeBurst_other (by omega) (hcount ▸ hj)

/-! ### What a step can do while a `STARTUP` is in progress -/

theorem Block.dequeue_occupancy_le (b : Block) : b.dequeue.2.occupancy ≤ b.occupancy := by
  obtain ⟨_, hd⟩ | ⟨hne, hd⟩ := b.dequeue_cases <;> rw [hd]
  exact Nat.le.intro (Block.occupancy_advance hne)

theorem Block.startSample_occupancy (b : Block) (x : Sample) : (b.startSample x).occupancy = b.occupancy := by
  obtain ⟨_, hw, hr, _⟩ := b.configure_frame x.freq
  exact Block.occupancy_congr hw hr

theorem Block.tick_occupancy_le (b : Block) : b.tick.occupancy ≤ b.occupancy := by
  obtain ⟨_, ht⟩ | ⟨_, ht⟩ | ⟨_, _, ht⟩ | ⟨_, hne, ht⟩ := b.tick_cases <;> rw [ht]
  · exact (Block.occupancy_congr rfl rfl).le
  · exact (Block.occupancy_congr rfl rfl).le
  · exact (Block.occupancy_congr rfl rfl).le
  · rw [Block.startSample_occupancy]
    exact Nat.le.intro (Block.occupancy_advance hne)

theorem Block.usec_occupancy (b : Block) : b.usec.occupancy = b.occupancy := by
  obtain ⟨_, hu⟩ | ⟨_, _, hu⟩ | ⟨_, _, hu⟩ := b.usec_cases <;> rw [hu]
  · exact Block.occupancy_congr rfl rfl
  · exact Block.occupancy_congr rfl rfl

/-- A firing that answers toggles the line. -/
theorem exec_fire_cases {s t : State} (h : exec .fire s = .next t) :
    s.block.genEn = true ∧ t = { s with block := s.block.toggle } := by
  simp only [exec, execFire] at h
  split at h
  · cases h
    exact ⟨‹_›, rfl⟩
  · cases h

/-- While a `STARTUP` has calls to make, a call from outside is a `RESET`, which drops them, or it leaves the events to come
as they are and fills no slot: the producers are turned away (R94). -/
theorem exec_during_startup {s t : State} {i : Instr} {rest : List Event} {r : Reader}
    (hbusy : pendingCalls s.inbox ≠ []) (ha : s.turnedAway i = none)
    (hx : exec i { s with inbox := rest, reader := r } = .next t) :
    (pendingCalls t.inbox = [] ∧ t.block.occupancy = 0) ∨
      (t.inbox = rest ∧ t.block.occupancy ≤ s.block.occupancy) := by
  cases i with
  | reset => cases hx; exact .inl ⟨pendingCalls_withoutCalls rest, s.block.initialise_occupancy⟩
  | freecap => cases hx; exact .inr ⟨rfl, le_rfl⟩
  | enq length buffer => simp [State.turnedAway, hbusy] at ha
  | tick => cases hx; exact .inr ⟨rfl, s.block.tick_occupancy_le⟩
  | startup rev => simp [State.turnedAway, hbusy] at ha
  | fire =>
    obtain ⟨_, rfl⟩ := exec_fire_cases hx
    exact .inr ⟨rfl, (Block.occupancy_congr rfl rfl).le⟩
  | deq => cases hx; exact .inr ⟨rfl, s.block.dequeue_occupancy_le⟩
  | cfg f => cases ha
  | genoff => cases ha
  | rest dur => cases ha
  | note freq dur => cases ha

/-- Every step while a `STARTUP` has calls to make: the calls are dropped and the queue is empty, or they stay and the queue
does not grow, or one of them is taken and adds at most its two samples. -/
theorem step_during_startup {s t : State} (hbusy : pendingCalls s.inbox ≠ []) (h : step s = .next t) :
    (pendingCalls t.inbox = [] ∧ t.block.occupancy = 0) ∨
      (pendingCalls t.inbox = pendingCalls s.inbox ∧ t.block.occupancy ≤ s.block.occupancy) ∨
      (∃ k, pendingCalls s.inbox = k :: pendingCalls t.inbox ∧ t.block.occupancy ≤ s.block.occupancy + 2) := by
  obtain ⟨e, rest, hi⟩ := step_has_event h
  cases e with
  | call bytes =>
    obtain ⟨i, _, ha, hx⟩ := step_call hi h
    obtain hreset | ⟨hrest, hocc⟩ := exec_during_startup hbusy ha hx
    · exact .inl hreset
    · exact .inr (.inl ⟨by rw [hrest, hi, pendingCalls_call], hocc⟩)
  | startupTurn =>
    rw [step_startupTurn hi] at h
    cases h
  | startupEnq k =>
    refine .inr (.inr ⟨k, ?_⟩)
    by_cases hroom : 2 < s.block.freeCapacity
    · rw [step_startupEnq_stored hi hroom] at h
      cases h
      exact ⟨by rw [hi, pendingCalls_enq], (s.block.storeBurst_occupancy (repetition k) hroom).le⟩
    · rw [step_startupEnq_dropped hi (Nat.not_lt.mp hroom)] at h
      cases h
      exact ⟨by rw [hi, pendingCalls_enq], Nat.le_add_right _ _⟩
  | usec =>
    rw [step_usec hi] at h
    cases h
    exact .inr (.inl ⟨by rw [hi, pendingCalls_usec], s.block.usec_occupancy.le⟩)

/-- Settles O45: a step that takes a call adds at most the two samples the call stood for, and no other step adds any. -/
theorem startupKeepsFitting : Obligations.StartupKeepsFitting := by
  intro s t hfits hbusy hstep
  unfold State.StartupFits at hfits ⊢
  obtain ⟨hcalls, hocc⟩ | ⟨hcalls, hocc⟩ | ⟨k, hcalls, hocc⟩ := step_during_startup hbusy hstep
  · rw [hcalls, hocc]
    decide
  · rw [hcalls]
    omega
  · rw [hcalls, List.length_cons] at hfits
    omega

/-! ### The calls among the other events -/

@[simp] theorem scheduleCalls_nil (es : List Event) : scheduleCalls [] es = es := by
  simp [scheduleCalls]

/-- The next call takes the next place left to the producer. -/
@[simp] theorem scheduleCalls_turn (k : Fin 4) (ks : List (Fin 4)) (es : List Event) :
    scheduleCalls (k :: ks) (.startupTurn :: es) = .startupEnq k :: scheduleCalls ks es := by
  simp [scheduleCalls]

/-- An event before the next place stays before the calls. -/
theorem scheduleCalls_skip {ks : List (Fin 4)} {e : Event} {es : List Event} (he : e ≠ .startupTurn)
    (hturn : ks ≠ [] → .startupTurn ∈ es) : scheduleCalls ks (e :: es) = e :: scheduleCalls ks es := by
  cases ks with
  | nil => simp
  | cons k ks => simp [scheduleCalls, he, hturn]

/-- An event that is no call of a `STARTUP` adds nothing to the calls yet to be made. -/
theorem pendingCalls_cons_of_none {e : Event} (he : e.startupPosition = none) (es : List Event) :
    pendingCalls (e :: es) = pendingCalls es :=
  List.filterMap_cons_none he

theorem pendingCalls_eq_nil_iff (es : List Event) : pendingCalls es = [] ↔ ∀ e ∈ es, e.startupPosition = none :=
  List.filterMap_eq_nil_iff

theorem withoutCalls_eq_self {es : List Event} (h : pendingCalls es = []) : withoutCalls es = es :=
  List.filter_eq_self.mpr fun e he => by rw [(pendingCalls_eq_nil_iff es).mp h e he]; rfl

@[simp] theorem withoutCalls_append (es fs : List Event) :
    withoutCalls (es ++ fs) = withoutCalls es ++ withoutCalls fs :=
  List.filter_append ..

@[simp] theorem withoutCalls_enq (k : Fin 4) (es : List Event) :
    withoutCalls (.startupEnq k :: es) = withoutCalls es := rfl

@[simp] theorem withoutCalls_map (ks : List (Fin 4)) : withoutCalls (ks.map .startupEnq) = [] := by
  induction ks with
  | nil => rfl
  | cons k ks ih => simpa using ih

theorem withoutCalls_cons_of_none {e : Event} (he : e.startupPosition = none) (es : List Event) :
    withoutCalls (e :: es) = e :: withoutCalls es :=
  List.filter_cons_of_pos (by rw [he]; rfl)

/-- Scheduling places every call, in order, and keeps the other events, but for places that calls take, in theirs. -/
theorem scheduleCalls_order (calls : List (Fin 4)) {es : List Event} (hes : pendingCalls es = []) :
    pendingCalls (scheduleCalls calls es) = calls ∧
      (withoutCalls (scheduleCalls calls es)).filter (· ≠ .startupTurn) = es.filter (· ≠ .startupTurn) := by
  fun_induction scheduleCalls calls es with
  -- no call is left
  | case1 es => exact ⟨hes, by rw [withoutCalls_eq_self hes]⟩
  -- no event is left
  | case2 k ks => exact ⟨pendingCalls_map _, by rw [withoutCalls_map]⟩
  -- the next event is a place, and a call takes it
  | case3 k ks es ih =>
    obtain ⟨hcalls, hothers⟩ := ih hes
    exact ⟨by rw [pendingCalls_enq, hcalls], by simpa using hothers⟩
  -- a place is still to come after the next event
  | case4 k ks e es _ _ ih =>
    have hnone : e.startupPosition = none := (pendingCalls_eq_nil_iff _).mp hes e (by simp)
    rw [pendingCalls_cons_of_none hnone] at hes
    obtain ⟨hcalls, hothers⟩ := ih hes
    exact ⟨by rw [pendingCalls_cons_of_none hnone, hcalls],
      by rw [withoutCalls_cons_of_none hnone, List.filter_cons, List.filter_cons, hothers]⟩
  -- no place is to come
  | case5 k ks e es _ _ =>
    exact ⟨by rw [pendingCalls_append, pendingCalls_map, hes, List.append_nil],
      by rw [withoutCalls_append, withoutCalls_map, withoutCalls_eq_self hes, List.nil_append]⟩

/-- A schedule with calls in it has places once they are taken back. -/
theorem startupTurn_mem_map_asTurn {es : List Event} (h : pendingCalls es ≠ []) : .startupTurn ∈ es.map Event.asTurn := by
  obtain ⟨k, hk⟩ := List.exists_mem_of_ne_nil _ h
  obtain ⟨e, he, hpos⟩ := List.mem_filterMap.mp hk
  refine List.mem_map.mpr ⟨e, he, ?_⟩
  cases e with
  | startupEnq _ => rfl
  | call _ => cases hpos
  | startupTurn => cases hpos
  | usec => cases hpos

/-- Taking the calls back to places and scheduling them again gives the schedule back. -/
theorem scheduleCalls_map_asTurn {es : List Event} (h : .startupTurn ∉ es) :
    scheduleCalls (pendingCalls es) (es.map Event.asTurn) = es := by
  induction es with
  | nil => simp
  | cons e es ih =>
    obtain ⟨hne, hes⟩ := not_or.mp (List.mem_cons.not.mp h)
    cases e with
    | call bytes =>
      rw [pendingCalls_call, List.map_cons, Event.asTurn, scheduleCalls_skip (Ne.symm hne) startupTurn_mem_map_asTurn,
        ih hes]
    | startupTurn => exact absurd rfl hne
    | startupEnq k => rw [pendingCalls_enq, List.map_cons, Event.asTurn, scheduleCalls_turn, ih hes]
    | usec =>
      rw [pendingCalls_usec, List.map_cons, Event.asTurn, scheduleCalls_skip (Ne.symm hne) startupTurn_mem_map_asTurn,
        ih hes]

/-- Settles O56: scheduling keeps both orders, and a schedule is what the places left by its own calls give. -/
theorem startupCallsInterleave : Obligations.StartupCallsInterleave :=
  ⟨fun calls _ hes => scheduleCalls_order calls hes, fun _ h => scheduleCalls_map_asTurn h⟩

end Sys2Proof.Machine

/-! PROOFS. 60_exceptions.md: the exact condition under which `ENQ` answers each of its errors (R101, R102). -/

namespace Sys2Proof.Machine

/-! ### When each check of `ENQ` fails -/

theorem Block.enqResult_eq_malformedInput_iff (b : Block) (length : Word) :
    b.enqResult length = .malformedInput ↔ length.toNat % 4 ≠ 0 := by
  rw [Block.enqResult_eq]
  split_ifs with h4 hfull
  · exact iff_of_true rfl h4
  · exact iff_of_false nofun h4
  · exact iff_of_false nofun h4

/-- The length is checked first, so a malformed burst that is also too large is no `QUEUE_FULL` (R105). -/
theorem Block.enqResult_eq_queueFull_iff (b : Block) (length : Word) :
    b.enqResult length = .queueFull ↔ length.toNat % 4 = 0 ∧ b.freeCapacity ≤ length.toNat / 4 := by
  rw [Block.enqResult_eq]
  split_ifs with h4 hfull
  · exact iff_of_false nofun fun h => h4 h.1
  · exact iff_of_true rfl ⟨not_not.mp h4, hfull⟩
  · exact iff_of_false nofun fun h => hfull h.2

section Replies
variable {length : Word} {buffer : List Byte} {s : State}

theorem reply_enq_malformedInput_iff (hlen : buffer.length = length.toNat) :
    reply (.enq length buffer) s = .enqueued .malformedInput ↔ length.toNat % 4 ≠ 0 := by
  rw [reply_enq s hlen, Reply.enqueued.injEq, Block.enqResult_eq_malformedInput_iff]

theorem reply_enq_queueFull_iff (hlen : buffer.length = length.toNat) :
    reply (.enq length buffer) s = .enqueued .queueFull ↔
      length.toNat % 4 = 0 ∧ s.block.freeCapacity ≤ length.toNat / 4 := by
  rw [reply_enq s hlen, Reply.enqueued.injEq, Block.enqResult_eq_queueFull_iff]

end Replies

/-! ### The statements about the two errors -/

/-- Settles O15: the first check decides `MALFORMED_INPUT` alone, and a rejection changes nothing. -/
theorem malformedLengthRejected : Obligations.MalformedLengthRejected := by
  intro s length buffer hlen
  refine ⟨fun h4 => ⟨?_, (reply_enq_malformedInput_iff hlen).mpr h4⟩, fun h4 hr => ?_⟩
  · have hr := (s.block.enqResult_eq_malformedInput_iff length).mpr h4
    exact exec_enq_rejected hlen (by rw [hr]; decide)
  · exact (reply_enq_malformedInput_iff hlen).mp hr h4

/-- Settles O16: the capacity in the statement is the block's, and `QUEUE_FULL` is the second check failing alone. -/
theorem fullQueueRejected : Obligations.FullQueueRejected := by
  intro s length buffer hlen
  simp only [← Block.freeCapacity_eq]
  exact ⟨enq_queueFull hlen, mt (reply_enq_queueFull_iff hlen).mp⟩

end Sys2Proof.Machine

/-! PROOFS. 70_reset_and_hazards.md: nothing survives a `RESET` but the slots (R123). -/

namespace Sys2Proof.Machine

/-- `RESET` reads nothing of the state but the slots and the events that are no call of a `STARTUP` (R120, R123). -/
theorem exec_reset (s : State) :
    exec .reset s = .next
      { block := { State.reset.block with mem := s.block.mem }
        inbox := withoutCalls s.inbox
        reader := .unclaimed } := rfl

/-- With no reader of the queue and no `STARTUP` in progress, only the operations `TICK` alone invokes are turned away
(30_encoding R52). -/
theorem State.turnedAway_of_idle {s : State} {i : Instr} (hreader : s.reader = .unclaimed)
    (hpending : pendingCalls s.inbox = []) (hop : i.format = .op) (hgenoff : i ≠ .genoff) (hcfg : ∀ f, i ≠ .cfg f) :
    s.turnedAway i = none := by
  cases i with
  | reset | freecap | fire => rfl
  | enq | startup => simp [State.turnedAway, hpending]
  | tick | deq => simp [State.turnedAway, hreader]
  | cfg f => exact absurd rfl (hcfg f)
  | genoff => exact absurd rfl hgenoff
  | rest | note => nomatch hop

/-- Settles O55: the next state is a function of the slots and the other events, and it has no reader and no pending call. -/
theorem nothingSurvivesReset : Obligations.NothingSurvivesReset := by
  refine ⟨fun s u t v hs hu hmem hinbox => ?_, fun s t i hs hop hgenoff hcfg => ?_⟩
  · rw [exec_reset] at hs hu
    cases hs
    cases hu
    rw [hmem, hinbox]
  · rw [exec_reset] at hs
    cases hs
    exact State.turnedAway_of_idle rfl (pendingCalls_withoutCalls s.inbox) hop hgenoff hcfg

end Sys2Proof.Machine

/-! PROOFS. 30_encoding.md: the encodings and their decoders (R46 to R49, R51, R54). -/

namespace Sys2Proof

/-! ### Fields and their bytes -/

theorem halfOfBytes_eq_ofNat (lo hi : Byte) : halfOfBytes lo hi = BitVec.ofNat 16 (lo.toNat + 256 * hi.toNat) := by
  rw [← halfOfBytes_toNat, BitVec.ofNat_toNat, BitVec.setWidth_eq]

theorem halfOfBytes_eq_zero_iff (lo hi : Byte) : halfOfBytes lo hi = 0#16 ↔ lo.toNat + 256 * hi.toNat = 0 := by
  rw [← BitVec.toNat_inj, halfOfBytes_toNat, BitVec.toNat_ofNat, Nat.zero_mod]

theorem bytesOfHalf_halfOfBytes (lo hi : Byte) : bytesOfHalf (halfOfBytes lo hi) = [lo, hi] := by
  simp [bytesOfHalf]

/-- The low byte of a field is what it leaves on division by 256. -/
theorem lowByte_toNat (h : Half) : (h.extractLsb' 0 8).toNat = h.toNat % 256 := by
  simp [BitVec.extractLsb'_toNat]

/-- The high byte of a field is its quotient by 256. -/
theorem highByte_toNat (h : Half) : (h.extractLsb' 8 8).toNat = h.toNat / 256 := by
  have := h.isLt
  rw [BitVec.extractLsb'_toNat, Nat.shiftRight_eq_div_pow]
  omega

theorem bytesOfWord_wordOfBytes (b0 b1 b2 b3 : Byte) : bytesOfWord (wordOfBytes b0 b1 b2 b3) = [b0, b1, b2, b3] := by
  have := b0.isLt
  have := b1.isLt
  have := b2.isLt
  have := b3.isLt
  simp only [bytesOfWord, List.cons.injEq, and_true, ← BitVec.toNat_inj, BitVec.extractLsb'_toNat, wordOfBytes_toNat,
    Nat.shiftRight_eq_div_pow]
  omega

theorem bytesOfSample_sampleOfBytes (b0 b1 b2 b3 : Byte) :
    bytesOfSample (sampleOfBytes b0 b1 b2 b3) = [b0, b1, b2, b3] := by
  simp only [bytesOfSample, sampleOfBytes, bytesOfHalf_halfOfBytes, List.cons_append, List.nil_append]

/-- Settles O2: the four bytes are the remainders and quotients of the fields by 256, and each direction undoes the other. -/
theorem sampleEncodingIsBijection : Obligations.SampleEncodingIsBijection :=
  ⟨fun freq dur => ⟨_, _, _, _, rfl, sampleOfBytes_bytes ⟨freq, dur⟩, lowByte_toNat freq, highByte_toNat freq,
    lowByte_toNat dur, highByte_toNat dur⟩, bytesOfSample_sampleOfBytes⟩

/-! ### Samples -/

theorem decode_bytesOfSample (x : Sample) : decode .sample (bytesOfSample x) = .ok (sampleInstr x) := by
  rw [← sampleOfBytes_bytes x, bytesOfSample_sampleOfBytes]
  rfl

theorem sampleInstr_note {freq : Half} (dur : Half) (h : freq ≠ 0#16) : sampleInstr ⟨freq, dur⟩ = .note freq dur :=
  if_neg h

/-- Settles O3: the class is tested on the frequency field, which is 0 exactly when both its bytes are. -/
theorem sampleClassByFrequency : Obligations.SampleClassByFrequency := by
  intro b0 b1 b2 b3
  have hdecode : decode .sample [b0, b1, b2, b3] = .ok (sampleInstr (sampleOfBytes b0 b1 b2 b3)) := rfl
  rw [hdecode, sampleInstr]
  simp only [sampleOfBytes, halfOfBytes_eq_zero_iff]
  simp only [halfOfBytes_eq_ofNat]

/-! ### The operands of a call: what each decoder accepts, and as what -/

theorem decodeNullary_eq_ok_iff {i j : Instr} {operands : List Byte} :
    decodeNullary i operands = .ok j ↔ operands = [] ∧ j = i := by
  cases operands <;> simp [decodeNullary, eq_comm]

theorem decodeEnq_eq_ok_iff {i : Instr} {operands : List Byte} :
    decodeEnq operands = .ok i ↔
      ∃ length buffer, operands = bytesOfWord length ++ buffer ∧ buffer.length = length.toNat ∧
        i = .enq length buffer := by
  constructor
  · intro h
    match operands, h with
    | l0 :: l1 :: l2 :: l3 :: buffer, h =>
      rw [decodeEnq] at h
      split_ifs at h with hshort hlong
      cases h
      exact ⟨_, buffer, by rw [bytesOfWord_wordOfBytes]; rfl, by omega, rfl⟩
  · rintro ⟨length, buffer, rfl, hlen, rfl⟩
    simp [bytesOfWord, decodeEnq, wordOfBytes_bytes, hlen]

theorem decodeStartup_eq_ok_iff {i : Instr} {operands : List Byte} :
    decodeStartup operands = .ok i ↔ ∃ rev, operands = [rev] ∧ i = .startup rev := by
  constructor
  · intro h
    match operands, h with
    | [rev], h => cases h; exact ⟨rev, rfl, rfl⟩
  · rintro ⟨rev, rfl, rfl⟩
    rfl

theorem decodeCfg_eq_ok_iff {i : Instr} {operands : List Byte} :
    decodeCfg operands = .ok i ↔ ∃ f, operands = bytesOfHalf f ∧ i = .cfg f := by
  constructor
  · intro h
    match operands, h with
    | [lo, hi], h => cases h; exact ⟨_, (bytesOfHalf_halfOfBytes lo hi).symm, rfl⟩
  · rintro ⟨f, rfl, rfl⟩
    simp [bytesOfHalf, decodeCfg, halfOfBytes_bytes]

/-! ### Calls -/

theorem decode_call (b : Byte) (operands : List Byte) :
    decode .op (b :: operands) = decodeSelected (selector b) operands := rfl

/-- Settles O1: each operand's decoder accepts what the encoder writes, and the encoder writes the codes of R51. -/
theorem decodeEncodeRoundTrip : Obligations.DecodeEncodeRoundTrip := by
  intro i hwf
  cases i with
  | reset | freecap | tick | fire | deq | genoff => exact decodeNullary_eq_ok_iff.mpr ⟨rfl, rfl⟩
  | enq length buffer => exact decodeEnq_eq_ok_iff.mpr ⟨length, buffer, rfl, beq_iff_eq.mp hwf, rfl⟩
  | startup rev => exact decodeStartup_eq_ok_iff.mpr ⟨rev, rfl, rfl⟩
  | cfg f => exact decodeCfg_eq_ok_iff.mpr ⟨f, rfl, rfl⟩
  | rest dur => exact decode_bytesOfSample ⟨0#16, dur⟩
  | note freq dur =>
    exact (decode_bytesOfSample ⟨freq, dur⟩).trans (congrArg Except.ok (sampleInstr_note dur (bne_iff_ne.mp hwf)))

/-- What a selector and its operands decode to is well formed, and is encoded as they are. -/
theorem decodeSelected_ok {op : BitVec 4} {operands : List Byte} {i : Instr} (h : decodeSelected op operands = .ok i) :
    i.wellFormed = true ∧ i.format = .op ∧ encode i = op.setWidth 8 :: operands := by
  have hcode {n : Nat} (hop : op.toNat = n) : op.setWidth 8 = BitVec.ofNat 8 n := by
    rw [← hop, BitVec.ofNat_toNat]
  unfold decodeSelected at h
  split at h <;> rename_i hop
  case h_3 =>
    obtain ⟨length, buffer, rfl, hlen, rfl⟩ := decodeEnq_eq_ok_iff.mp h
    exact ⟨beq_iff_eq.mpr hlen, rfl, by rw [hcode hop]; rfl⟩
  case h_5 =>
    obtain ⟨rev, rfl, rfl⟩ := decodeStartup_eq_ok_iff.mp h
    exact ⟨rfl, rfl, by rw [hcode hop]; rfl⟩
  case h_8 =>
    obtain ⟨f, rfl, rfl⟩ := decodeCfg_eq_ok_iff.mp h
    exact ⟨rfl, rfl, by rw [hcode hop]; rfl⟩
  case h_10 => cases h
  all_goals
    obtain ⟨rfl, rfl⟩ := decodeNullary_eq_ok_iff.mp h
    exact ⟨rfl, rfl, by rw [hcode hop]; rfl⟩

theorem selector_toNat (b : Byte) : (selector b).toNat = b.toNat % 16 := by
  simp [selector, BitVec.extractLsb'_toNat]

theorem selector_eq_ofNat (b : Byte) : selector b = BitVec.ofNat 4 b.toNat := by
  rw [← BitVec.toNat_inj, selector_toNat, BitVec.toNat_ofNat]

/-- The mask of the table keeps the selector and clears the high four bits. -/
theorem selector_setWidth (b : Byte) : (selector b).setWidth 8 = b &&& 0x0F#8 := by
  have hmask : b.toNat &&& 15 = b.toNat % 16 := Nat.and_two_pow_sub_one_eq_mod b.toNat 4
  rw [← BitVec.toNat_inj, BitVec.toNat_setWidth, selector_toNat, BitVec.toNat_and, BitVec.toNat_ofNat,
    Nat.mod_eq_of_lt (by decide : 15 < 2 ^ 8), hmask]
  omega

/-- Settles O5: the operand decoders drop nothing, and of the selector's byte the masked bits alone are read. -/
theorem decodedCallIsItsEncoding : Obligations.DecodedCallIsItsEncoding := by
  intro b operands i h
  rw [decode_call] at h
  rw [← selector_setWidth]
  exact decodeSelected_ok h

/-- Settles O4: each word is decoded by the arm of its selector, or by the class of its frequency. -/
theorem specWordsDecode : Obligations.SpecWordsDecode :=
  ⟨rfl, rfl, rfl, rfl, rfl, rfl, rfl, rfl, rfl⟩

/-- The codes of R54 name no operation. -/
theorem decodeSelected_reserved {op : BitVec 4} (operands : List Byte)
    (h : op.toNat ∈ [6, 7, 11, 12, 13, 14, 15]) : decodeSelected op operands = .error (.reservedSelector op) := by
  simp only [List.mem_cons, List.not_mem_nil, or_false] at h
  unfold decodeSelected
  split
  case h_10 => rfl
  all_goals omega

/-- A call decodes to an operation, never to a sample. -/
theorem decode_op_format {bytes : List Byte} {i : Instr} (h : decode .op bytes = .ok i) : i.format = .op := by
  cases bytes with
  | nil => cases h
  | cons b operands =>
    obtain ⟨_, hformat, _⟩ := decodeSelected_ok h
    exact hformat

end Sys2Proof

/-! PROOFS. 30_encoding.md sections 1.4 and 2: which calls run, and which are turned away (R52, R54). -/

namespace Sys2Proof.Machine

/-- An operation returns the same whatever events are to come and whichever context reads the queue. -/
theorem reply_congr (i : Instr) {s t : State} (h : t.block = s.block) : reply i t = reply i s := by
  cases i <;> simp only [reply, h]

section Calls
variable {s : State} {bytes : List Byte} {rest : List Event} {i : Instr}

theorem step_undecodable {why : Reject} (hi : s.inbox = .call bytes :: rest) (hd : decode .op bytes = .error why) :
    step s = .refused (.undecodable why) := by
  simp only [step_event hi, State.runEvent, State.runCall, hd]

theorem step_decoded (hi : s.inbox = .call bytes :: rest) (hd : decode .op bytes = .ok i) :
    step s = State.invoke { s with inbox := rest } i := by
  simp only [step_event hi, State.runEvent, State.runCall, hd]

theorem step_turnedAway {why : Refusal} (hi : s.inbox = .call bytes :: rest) (hd : decode .op bytes = .ok i)
    (ha : s.turnedAway i = some why) : step s = .refused why := by
  simp only [step_decoded hi hd, State.invoke, State.turnedAway_call hi, ha]

theorem step_not_turnedAway (hi : s.inbox = .call bytes :: rest) (hd : decode .op bytes = .ok i)
    (ha : s.turnedAway i = none) :
    step s = exec i { s with inbox := rest, reader := readerAfter i s.reader } := by
  simp only [step_decoded hi hd, State.invoke, State.turnedAway_call hi, ha]

end Calls

/-- Settles O6: the decoder rejects the code by its name, and a call that decodes to nothing is refused. -/
theorem reservedSelectorsRefused : Obligations.ReservedSelectorsRefused := by
  intro s b operands rest hi hreserved
  rw [← selector_toNat] at hreserved
  rw [← selector_eq_ofNat]
  exact step_undecodable hi (decodeSelected_reserved operands hreserved)

/-- Settles O7: the step runs the call on the state without its event, where the operation returns the same. -/
theorem stepRunsDecodedCall : Obligations.StepRunsDecodedCall := by
  intro s bytes rest i hi hd ha
  refine ⟨step_not_turnedAway hi hd ha, ?_⟩
  have hreply : s.nextReply = some (reply i s) := by
    simp only [State.nextReply, hi, hd]
    rfl
  rw [hreply]
  exact congrArg some (reply_congr i rfl).symm

/-- Settles O8: each clause is one arm of `State.turnedAway`. -/
theorem whichCallsAreTurnedAway : Obligations.WhichCallsAreTurnedAway := by
  intro s bytes rest i hi hd
  have hpending : pendingCalls s.inbox = pendingCalls rest := by rw [hi, pendingCalls_call]
  refine ⟨?_, ?_, ?_, ?_, ?_⟩
  · rintro (rfl | ⟨f, rfl⟩)
    · exact step_turnedAway hi hd rfl
    · exact step_turnedAway hi hd rfl
  · rintro rfl hreader
    exact step_turnedAway hi hd (if_pos hreader)
  · rintro rfl hreader
    exact step_turnedAway hi hd (if_pos hreader)
  · rintro (⟨length, buffer, rfl⟩ | ⟨rev, rfl⟩) hbusy
    · exact step_turnedAway hi hd (by simp [State.turnedAway, hpending, hbusy])
    · exact step_turnedAway hi hd (by simp [State.turnedAway, hpending, hbusy])
  · intro hgenoff hcfg hdeq htick hproducer
    have hop := decode_op_format hd
    cases i with
    | reset | freecap | fire => rfl
    | enq length buffer => simp [State.turnedAway, hpending, hproducer (.inl ⟨length, buffer, rfl⟩)]
    | tick => exact if_neg (htick rfl)
    | startup rev => simp [State.turnedAway, hpending, hproducer (.inr ⟨rev, rfl⟩)]
    | deq => exact if_neg (hdeq rfl)
    | cfg f => exact absurd rfl (hcfg f)
    | genoff => exact absurd rfl hgenoff
    | rest | note => nomatch hop

end Sys2Proof.Machine

/-! PROOFS. 40_tone_queue.md: the burst that is stored (R62), the sample that is dequeued (R63), and the queue of live samples
that every step acts on (R67; 20_memory.md R40). -/

namespace Sys2Proof.Machine

/-! ### One `ENQ`, one `DEQ` -/

/-- A buffer of another number of bytes than `length` is no call of the block. -/
theorem exec_enq_mismatch {length : Word} {buffer : List Byte} (s : State) (h : buffer.length ≠ length.toNat) :
    exec (.enq length buffer) s = .refused .bufferLengthMismatch :=
  if_neg h

/-- Settles O21: the length of the buffer is the one thing `ENQ` tests before it answers. -/
theorem bufferMismatchRefused : Obligations.BufferMismatchRefused :=
  fun s _ _ h => exec_enq_mismatch s h

/-- `DEQ` always answers, and writes the block alone. -/
theorem exec_deq (s : State) : exec .deq s = .next { s with block := s.block.dequeue.2 } := rfl

theorem Block.dequeue_of_eq {b : Block} (h : b.writePos = b.readPos) : b.dequeue = (none, b) := if_pos h

theorem Block.dequeue_of_ne {b : Block} (h : b.writePos ≠ b.readPos) :
    b.dequeue = (some (b.mem.read b.readPos), { b with readPos := b.readPos + 1#5 }) := if_neg h

/-- The next slot around the index space, in plain arithmetic. -/
theorem SlotIx.add_one_eq_ofNat (i : SlotIx) : i + 1#5 = BitVec.ofNat 5 ((i.toNat + 1) % 32) := by
  simp [← BitVec.toNat_inj]

/-- Settles O22: the two cases of `DEQ`. -/
theorem deqReturnsOldest : Obligations.DeqReturnsOldest := by
  intro s
  refine ⟨fun heq => ?_, fun hne => ?_⟩
  · rw [exec_deq, reply_deq, Block.dequeue_of_eq heq]
    exact ⟨rfl, rfl⟩
  · rw [exec_deq, reply_deq, Block.dequeue_of_ne hne, SlotIx.add_one_eq_ofNat]
    exact ⟨rfl, rfl⟩

/-- `k` slots forward from `i` is at distance `k`, as long as that does not go around the whole index space. -/
theorem Memory.distance_add (i : SlotIx) {k : Nat} (h : k < 32) : Memory.distance i (i + BitVec.ofNat 5 k) = k := by
  have := i.isLt
  simp only [Memory.distance, BitVec.toNat_sub, BitVec.toNat_add, BitVec.toNat_ofNat]
  omega

/-- The slots of a burst read as its samples, in order. -/
theorem Memory.read_writeBurst_added (m : Memory) (i : SlotIx) {xs : List Sample} (hlen : xs.length ≤ 32) {k : Nat}
    (hk : k < xs.length) : (m.writeBurst i xs).read (i + BitVec.ofNat 5 k) = xs[k] := by
  have hd := Memory.distance_add i (k := k) (by omega)
  rw [Memory.read_writeBurst m i _ xs hlen, dif_pos (hd.symm ▸ hk)]
  simp only [hd]

/-- Sample `k` of a burst, from its four bytes in plain arithmetic. -/
theorem samplesOf_getElem_eq_ofNat (bytes : List Byte) (k : Nat) (h : k < (samplesOf bytes).length) :
    (samplesOf bytes)[k] =
      ⟨BitVec.ofNat 16 ((bytes.getD (4 * k) 0#8).toNat + 256 * (bytes.getD (4 * k + 1) 0#8).toNat),
        BitVec.ofNat 16 ((bytes.getD (4 * k + 2) 0#8).toNat + 256 * (bytes.getD (4 * k + 3) 0#8).toNat)⟩ := by
  rw [samplesOf_getElem, sampleOfBytes, halfOfBytes_eq_ofNat, halfOfBytes_eq_ofNat]

/-- Settles O14: the burst is accepted, and it is at most 30 samples, which are written to as many slots. -/
theorem enqStoresBurst : Obligations.EnqStoresBurst := by
  intro s length buffer hlen h4 hlt
  rw [← Block.freeCapacity_eq] at hlt
  have hcount : (samplesOf buffer).length = length.toNat / 4 := by rw [samplesOf_length, hlen]
  have hshort : (samplesOf buffer).length ≤ 32 := by
    have := s.block.freeCapacity_le
    omega
  have haccepted := exec_enq_accepted hlen ((s.block.enqResult_eq_ok_iff length).mpr ⟨h4, hlt⟩)
  rw [Block.storeBurst, hcount] at haccepted
  refine ⟨(reply_enq_ok_iff hlen).mpr ⟨h4, hlt⟩, _, haccepted, fun k hk => ?_, fun j hj => ?_⟩
  · rw [← hcount] at hk
    rw [s.block.mem.read_writeBurst_added _ hshort hk, samplesOf_getElem_eq_ofNat]
  · exact s.block.mem.read_writeBurst_other hshort (hcount ▸ hj)

/-! ### The live samples as a queue -/

theorem Block.initialise_live (b : Block) : b.initialise.live = [] := b.initialise.live_empty rfl

theorem Block.toggle_live (b : Block) : b.toggle.live = b.live := Block.live_congr rfl rfl rfl

theorem Block.startSample_live (b : Block) (x : Sample) : (b.startSample x).live = b.live := by
  obtain ⟨hm, hw, hr, _⟩ := b.configure_frame x.freq
  exact Block.live_congr hm hw hr

theorem Block.usec_live (b : Block) : b.usec.live = b.live := by
  obtain ⟨_, hu⟩ | ⟨_, _, hu⟩ | ⟨_, _, hu⟩ := b.usec_cases <;> rw [hu]
  · exact Block.live_congr rfl rfl rfl
  · exact Block.live_congr rfl rfl rfl

/-- A tick takes the head of the queue when it fetches, and nothing otherwise. -/
theorem Block.tick_live (b : Block) : b.tick.live = if b.phase = .due then b.live.tail else b.live := by
  obtain ⟨hp, ht⟩ | ⟨hp, ht⟩ | ⟨hp, heq, ht⟩ | ⟨hp, hne, ht⟩ := b.tick_cases <;> rw [ht, hp]
  · exact Block.live_congr rfl rfl rfl
  · exact Block.live_congr rfl rfl rfl
  · have hidle : b.goIdle.live = b.live := Block.live_congr rfl rfl rfl
    rw [hidle, b.live_empty heq]
    rfl
  · rw [Block.startSample_live, b.live_cons hne]
    rfl

/-- `DEQ` removes the head of the queue and answers it, or finds the queue empty. -/
theorem Block.dequeue_live (b : Block) :
    (b.live = [] ∧ b.dequeue.2.live = [] ∧ b.dequeue.1 = none) ∨
      ∃ x, b.live = x :: b.dequeue.2.live ∧ b.dequeue.1 = some x := by
  obtain ⟨heq, hd⟩ | ⟨hne, hd⟩ := b.dequeue_cases <;> rw [hd]
  · exact .inl ⟨b.live_empty heq, b.live_empty heq, rfl⟩
  · exact .inr ⟨_, b.live_cons hne, rfl⟩

/-- An `ENQ` that answers appends its burst whole, or is rejected and leaves the queue. -/
theorem exec_enq_live {length : Word} {buffer : List Byte} {s t : State} (h : exec (.enq length buffer) s = .next t) :
    (reply (.enq length buffer) s = .enqueued .ok ∧ t.block.live = s.block.live ++ samplesOf buffer) ∨
      (reply (.enq length buffer) s ≠ .enqueued .ok ∧ t.block.live = s.block.live) := by
  obtain ⟨hlen, ⟨hrejected, ht⟩ | ⟨hok, _, _, hfits, ht⟩⟩ := execEnq_cases h <;> rw [reply_enq s hlen, ht]
  · exact .inr ⟨fun hok => hrejected (Reply.enqueued.inj hok), rfl⟩
  · exact .inl ⟨congrArg Reply.enqueued hok, s.block.storeBurst_live _ hfits⟩

/-- Settles O25: each event acts on the list of live samples as its operation does on a queue. -/
theorem bufferRefinesFifoQueue : Obligations.BufferRefinesFifoQueue := by
  refine ⟨fun s t bytes rest hi hstep => ?_, fun s t rest k hi hstep => ?_, fun s t rest hi hstep => ?_⟩
  · obtain ⟨i, hd, ha, hx⟩ := step_call hi hstep
    refine ⟨i, hd, ?_⟩
    cases i with
    | reset => cases hx; exact s.block.initialise_live
    | freecap => cases hx; rfl
    | enq length buffer =>
      have hlive := exec_enq_live hx
      rwa [reply_congr (t := { s with inbox := rest, reader := _ }) _ rfl] at hlive
    | tick => cases hx; exact s.block.tick_live
    | startup rev => cases hx; rfl
    | fire =>
      obtain ⟨_, rfl⟩ := exec_fire_cases hx
      exact s.block.toggle_live
    | deq =>
      cases hx
      simpa only [reply_deq, Reply.dequeued.injEq] using s.block.dequeue_live
    | cfg f => cases ha
    | genoff => cases ha
    | rest dur => cases ha
    | note freq dur => cases ha
  · split_ifs with hfull
    · rw [step_startupEnq_dropped hi hfull] at hstep
      cases hstep
      rfl
    · rw [step_startupEnq_stored hi (Nat.lt_of_not_le hfull)] at hstep
      cases hstep
      exact s.block.storeBurst_live _ (Nat.lt_of_not_le hfull)
  · rw [step_usec hi] at hstep
    cases hstep
    exact s.block.usec_live

end Sys2Proof.Machine

/-! PROOFS. 10_state.md: the values after reset (R24), the HAL trace and the registers it leaves (R20), and the one writer of
each register (R22); 70_reset_and_hazards.md: the effect of `RESET` (R120). -/

namespace Sys2Proof.Machine

/-! ### Reset -/

/-- Settles O11: the effect of `RESET`, with the calls of a `STARTUP` written as the events they are. -/
theorem resetEffect : Obligations.ResetEffect := exec_reset

/-- Settles O12: the literal values of `State.reset`. -/
theorem resetStateValues : Obligations.ResetStateValues := ⟨rfl, rfl, rfl, rfl, rfl, rfl, rfl, rfl, rfl, rfl⟩

/-- Initialising the block of reset once more changes nothing. -/
theorem initialise_reset_block : State.reset.block.initialise = State.reset.block := rfl

/-- No sample is live after reset. -/
theorem queueInv_reset : State.reset.block.QueueInv where
  memWf := Memory.wf_reset
  occupancyBound := by decide
  liveWritten _ hk := absurd hk (Nat.not_lt_zero _)

/-- Settles O47: both parts of the invariant hold of an initialised block. -/
theorem resetMeetsInvariant : Obligations.ResetMeetsInvariant :=
  (Block.inv_iff _).mpr ⟨queueInv_reset, initialise_reset_block ▸ Block.PlaybackInv.initialise State.reset.block⟩

/-- Settles O51: the two HAL calls of `RESET` leave the generator disabled and the line low. -/
theorem resetMirrorsMatchTrace : Obligations.ResetMirrorsMatchTrace := rfl

/-! ### Everything an instruction can do to the block -/

theorem exec_freecap (s : State) : exec .freecap s = .next s := rfl

theorem exec_genoff (s : State) : exec .genoff s = .next { s with block := s.block.generatorOff } := rfl

theorem exec_rest (dur : Half) (s : State) :
    exec (.rest dur) s = .next { s with block := s.block.startSample ⟨0#16, dur⟩ } := rfl

theorem exec_note (freq dur : Half) (s : State) :
    exec (.note freq dur) s = .next { s with block := s.block.startSample ⟨freq, dur⟩ } := rfl

/-- The blocks an instruction can lead to from the block `b`: which instruction makes which named update. -/
inductive Block.After (b : Block) : Instr → Block → Prop
  | unchanged (i : Instr) : b.After i b
  | initialise : b.After .reset b.initialise
  | storeBurst (length : Word) (buffer : List Byte) (xs : List Sample) : b.After (.enq length buffer) (b.storeBurst xs)
  | tick : b.After .tick b.tick
  | toggle : b.After .fire b.toggle
  | dequeue : b.After .deq b.dequeue.2
  | configure (f : Half) : b.After (.cfg f) (b.configure f)
  | generatorOff : b.After .genoff b.generatorOff
  | rest (dur : Half) : b.After (.rest dur) (b.startSample ⟨0#16, dur⟩)
  | note (freq dur : Half) : b.After (.note freq dur) (b.startSample ⟨freq, dur⟩)

/-- An instruction that answers makes one of these updates. -/
theorem exec_block_after {i : Instr} {s t : State} (h : exec i s = .next t) : s.block.After i t.block := by
  cases i with
  | reset => cases h; exact .initialise
  | freecap => cases h; exact .unchanged _
  | enq length buffer =>
    obtain ⟨_, ⟨_, rfl⟩ | ⟨_, _, _, _, rfl⟩⟩ := execEnq_cases h
    · exact .unchanged _
    · exact .storeBurst ..
  | tick => cases h; exact .tick
  | startup rev => cases h; exact .unchanged _
  | fire =>
    obtain ⟨_, rfl⟩ := exec_fire_cases h
    exact .toggle
  | deq => cases h; exact .dequeue
  | cfg f => cases h; exact .configure f
  | genoff => cases h; exact .generatorOff
  | rest dur => cases h; exact .rest dur
  | note freq dur => cases h; exact .note freq dur

/-! ### The HAL calls of an operation -/

/-- From `b` to `c` the block makes the HAL calls `calls`: they extend the trace, and the mirror registers move by their
effects alone (R20). -/
structure Block.Makes (b c : Block) (calls : List HalCall) : Prop where
  halTrace : c.halTrace = b.halTrace ++ calls
  mirrors : c.mirrors = calls.foldl Mirrors.after b.mirrors

/-- An update of other registers makes no HAL call. -/
theorem Block.makes_nil {b c : Block} (ht : c.halTrace = b.halTrace) (hm : c.mirrors = b.mirrors) : b.Makes c [] :=
  ⟨by rw [ht, List.append_nil], hm⟩

theorem Block.generatorOff_makes (b : Block) : b.Makes b.generatorOff [.disablePeriodicInterrupt] := ⟨rfl, rfl⟩

theorem Block.toggle_makes (b : Block) : b.Makes b.toggle [.toggleOutput] := ⟨rfl, rfl⟩

theorem Block.configure_makes (b : Block) (f : Half) : ∃ calls, b.Makes (b.configure f) calls := by
  obtain ⟨_, h⟩ | ⟨_, h⟩ := b.configure_cases f <;> rw [h]
  · exact ⟨_, b.generatorOff_makes⟩
  · exact ⟨_, rfl, rfl⟩

/-- Loading the pair of the scheduler is no HAL call. -/
theorem Block.startSample_makes (b : Block) (x : Sample) : ∃ calls, b.Makes (b.startSample x) calls := by
  obtain ⟨calls, htrace, hmirrors⟩ := b.configure_makes x.freq
  exact ⟨calls, htrace, hmirrors⟩

theorem Block.dequeue_makes (b : Block) : b.Makes b.dequeue.2 [] := by
  obtain ⟨_, hd⟩ | ⟨_, hd⟩ := b.dequeue_cases <;> rw [hd]
  · exact Block.makes_nil rfl rfl
  · exact Block.makes_nil rfl rfl

theorem Block.tick_makes (b : Block) : ∃ calls, b.Makes b.tick calls := by
  obtain ⟨_, ht⟩ | ⟨_, ht⟩ | ⟨_, _, ht⟩ | ⟨_, _, ht⟩ := b.tick_cases <;> rw [ht]
  · exact ⟨[], Block.makes_nil rfl rfl⟩
  · exact ⟨[.disablePeriodicInterrupt], rfl, rfl⟩
  · exact ⟨[.disablePeriodicInterrupt], rfl, rfl⟩
  · obtain ⟨calls, htrace, hmirrors⟩ := Block.startSample_makes { b with readPos := b.readPos + 1#5 } (b.mem.read b.readPos)
    exact ⟨calls, htrace, hmirrors⟩

theorem Block.usec_makes (b : Block) : ∃ calls, b.Makes b.usec calls := by
  obtain ⟨_, hu⟩ | ⟨_, _, hu⟩ | ⟨_, _, hu⟩ := b.usec_cases <;> rw [hu]
  · exact ⟨[], Block.makes_nil rfl rfl⟩
  · exact ⟨[.toggleOutput], rfl, rfl⟩
  · exact ⟨[], Block.makes_nil rfl rfl⟩

theorem Block.After.makes {b c : Block} {i : Instr} (h : b.After i c) :
    (i = .reset ∧ c = b.initialise) ∨ ∃ calls, b.Makes c calls := by
  cases h with
  | unchanged => exact .inr ⟨[], Block.makes_nil rfl rfl⟩
  | initialise => exact .inl ⟨rfl, rfl⟩
  | storeBurst _ _ xs => exact .inr ⟨[], Block.makes_nil rfl rfl⟩
  | tick => exact .inr b.tick_makes
  | toggle => exact .inr ⟨_, b.toggle_makes⟩
  | dequeue => exact .inr ⟨_, b.dequeue_makes⟩
  | configure f => exact .inr (b.configure_makes f)
  | generatorOff => exact .inr ⟨_, b.generatorOff_makes⟩
  | rest dur => exact .inr (b.startSample_makes _)
  | note freq dur => exact .inr (b.startSample_makes _)

/-- Every step is a `RESET`, which starts the trace anew, or extends the trace by the HAL calls it makes. -/
theorem step_makes {s t : State} {e : Event} {rest : List Event} (hi : s.inbox = e :: rest) (h : step s = .next t) :
    ((∃ bytes, e = .call bytes ∧ decode .op bytes = .ok .reset) ∧ t.block = s.block.initialise) ∨
      ∃ calls, s.block.Makes t.block calls := by
  cases e with
  | call bytes =>
    obtain ⟨i, hd, _, hx⟩ := step_call hi h
    obtain ⟨rfl, hb⟩ | hcalls := (exec_block_after hx).makes
    · exact .inl ⟨⟨bytes, rfl, hd⟩, hb⟩
    · exact .inr hcalls
  | startupTurn =>
    rw [step_startupTurn hi] at h
    cases h
  | startupEnq k =>
    rw [step_startupEnq_eq_exec hi] at h
    obtain ⟨hreset, _⟩ | hcalls := (exec_block_after h).makes
    · cases hreset
    · exact .inr hcalls
  | usec =>
    rw [step_usec hi] at h
    cases h
    exact .inr s.block.usec_makes

/-- What a trace leaves is what its first part leaves, moved on by the rest. -/
theorem Mirrors.ofTrace_append (trace calls : List HalCall) :
    Mirrors.ofTrace (trace ++ calls) = calls.foldl Mirrors.after (Mirrors.ofTrace trace) :=
  List.foldl_append

/-- HAL calls keep the mirror registers what the trace leaves. -/
theorem Block.Makes.mirrors_eq_ofTrace {b c : Block} {calls : List HalCall} (h : b.Makes c calls)
    (hb : b.mirrors = Mirrors.ofTrace b.halTrace) : c.mirrors = Mirrors.ofTrace c.halTrace := by
  rw [h.mirrors, h.halTrace, Mirrors.ofTrace_append, hb]

/-- Settles O52: a `RESET` leaves what its own two calls leave, and any other step moves the registers by its HAL calls. -/
theorem stepKeepsMirrorsMatched : Obligations.StepKeepsMirrorsMatched := by
  intro s t hmatched hstep
  obtain ⟨e, rest, hi⟩ := step_has_event hstep
  obtain ⟨_, hb⟩ | ⟨calls, hcalls⟩ := step_makes hi hstep
  · rw [hb]
    exact resetMirrorsMatchTrace
  · exact hcalls.mirrors_eq_ofTrace hmatched

/-- Settles O53: a step that is no `RESET` extends the trace by its HAL calls. -/
theorem halTraceOnlyGrows : Obligations.HalTraceOnlyGrows := by
  intro s t e rest hi hstep
  obtain ⟨hreset, _⟩ | ⟨calls, hcalls⟩ := step_makes hi hstep
  · exact .inr hreset
  · exact .inl ⟨calls, hcalls.halTrace⟩

/-! ### One writer for each register -/

/-- `DEQ` moves `read_pos` alone. -/
theorem Block.dequeue_frame (b : Block) : b.dequeue.2 = { b with readPos := b.dequeue.2.readPos } := by
  obtain ⟨_, hd⟩ | ⟨_, hd⟩ := b.dequeue_cases <;> rw [hd]

/-- A tick moves no slot, not `write_pos` and not the line. -/
theorem Block.tick_frame (b : Block) :
    b.tick.mem = b.mem ∧ b.tick.writePos = b.writePos ∧ b.tick.out = b.out := by
  obtain ⟨_, ht⟩ | ⟨_, ht⟩ | ⟨_, _, ht⟩ | ⟨_, _, ht⟩ := b.tick_cases <;> rw [ht]
  · exact ⟨rfl, rfl, rfl⟩
  · exact ⟨rfl, rfl, rfl⟩
  · exact ⟨rfl, rfl, rfl⟩
  · obtain ⟨hm, hw, _, _, _, ho⟩ :=
      Block.configure_frame { b with readPos := b.readPos + 1#5 } (b.mem.read b.readPos).freq
    exact ⟨hm, hw, ho⟩

/-- Settles O54: each update moves registers of its own writer only. -/
theorem registersHaveOneWriter : Obligations.RegistersHaveOneWriter := by
  intro i s t h
  generalize hb : s.block = b, hc : t.block = c
  have hafter := exec_block_after h
  rw [hb, hc] at hafter
  cases hafter with
  | unchanged => simp
  | initialise => simp
  | storeBurst => simp
  | tick =>
    obtain ⟨hm, hw, ho⟩ := b.tick_frame
    simp [hm, hw, ho]
  | toggle => simp
  | dequeue =>
    rw [b.dequeue_frame]
    simp
  | configure f =>
    obtain ⟨hm, hw, hr, he, hd, ho⟩ := b.configure_frame f
    simp [hm, hw, hr, he, hd, ho]
  | generatorOff => simp
  | rest dur =>
    obtain ⟨hm, hw, hr, _, _, ho⟩ := b.configure_frame 0#16
    simp [hm, hw, hr, ho]
  | note freq dur =>
    obtain ⟨hm, hw, hr, _, _, ho⟩ := b.configure_frame freq
    simp [hm, hw, hr, ho]

end Sys2Proof.Machine

/-! PROOFS. 41_playback_scheduler.md: the branches of `TICK` in the gap and at a fetch (section 1), the timeline of a sample,
the idle cycle and the start latency (section 3). -/

namespace Sys2Proof.Machine

/-! ### The branch that a pair selects -/

theorem Block.tick_of_gap {b : Block} (h : b.phase = .gap) : b.tick = b.generatorOff.countTick := by
  simp only [Block.tick, h]

theorem Block.tick_of_due_nonempty {b : Block} (h : b.phase = .due) (hne : b.writePos ≠ b.readPos) :
    b.tick = ({ b with readPos := b.readPos + 1#5 } : Block).startSample (b.mem.read b.readPos) := by
  simp only [Block.tick, h, Block.dequeue_of_ne hne]

theorem Block.phase_eq_gap {b : Block} (hd : b.activeDuration.toNat ≤ 65535)
    (hlo : b.activeDuration.toNat ≤ b.elapsed.toNat) (hhi : b.elapsed.toNat ≤ b.activeDuration.toNat + 5) :
    b.phase = .gap := by
  rw [b.phase_eq hd, if_neg (Nat.not_lt.mpr hlo), if_pos hhi]

theorem Block.phase_eq_due_iff {b : Block} (hd : b.activeDuration.toNat ≤ 65535) :
    b.phase = .due ↔ b.activeDuration.toNat + 5 < b.elapsed.toNat := by
  refine ⟨fun h => ?_, Block.phase_eq_due hd⟩
  rw [b.phase_eq hd] at h
  split_ifs at h with _ hgap
  exact Nat.lt_of_not_le hgap

/-! ### What a sample does that starts -/

theorem Block.startSample_of_zero (b : Block) {x : Sample} (h : x.freq = 0#16) :
    b.startSample x = { b with
      elapsed := 0#32
      activeDuration := BitVec.ofNat 32 x.dur.toNat
      genEn := false
      halTrace := b.halTrace ++ [.disablePeriodicInterrupt] } := by
  rw [Block.startSample, h, Block.configure_zero, Block.generatorOff_eq, BitVec.ofNat_toNat]

theorem Block.startSample_of_ne_zero (b : Block) {x : Sample} (h : x.freq ≠ 0#16) :
    b.startSample x = { b with
      elapsed := 0#32
      activeDuration := BitVec.ofNat 32 x.dur.toNat
      genEn := true
      genPeriod := togglePeriod x.freq
      genCnt := 0#32
      halTrace := b.halTrace ++ [.configurePeriodicSource (togglePeriod x.freq), .enablePeriodicInterrupt] } := by
  rw [Block.startSample, Block.configure_of_ne_zero b h, BitVec.ofNat_toNat]

/-- A sample run as the instruction it decodes to is the sample started. -/
theorem exec_sampleInstr (x : Sample) (s : State) :
    exec (sampleInstr x) s = .next { s with block := s.block.startSample x } := by
  by_cases h : x.freq = 0#16
  · rw [sampleInstr, if_pos h, exec_rest, ← h]
  · rw [sampleInstr, if_neg h, exec_note]

/-! ### The statements about one `TICK`, `REST` or `NOTE` -/

/-- Settles O27: the pair selects branch 2, which switches the generator off and counts. -/
theorem tickInGap : Obligations.TickInGap := by
  intro s hd hlo hhi
  rw [exec_tick, Block.tick_of_gap (Block.phase_eq_gap hd hlo hhi), Block.countTick_eq, Block.generatorOff_eq]

/-- Settles O9: branch 3 starts the sample at `read_pos` on the block with the cursor moved on. -/
theorem tickRunsFetchedSample : Obligations.TickRunsFetchedSample := by
  intro s hd hdue hne
  rw [exec_tick, Block.tick_of_due_nonempty (Block.phase_eq_due hd hdue) hne, exec_sampleInstr]

/-- Settles O29: branch 3 starts the sample, which configures the generator as its frequency says. -/
theorem tickFetchesSample : Obligations.TickFetchesSample := by
  rintro s x hd hdue hne rfl
  rw [exec_tick, Block.tick_of_due_nonempty (Block.phase_eq_due hd hdue) hne]
  split_ifs with hf
  · rw [Block.startSample_of_zero _ hf]
  · rw [Block.startSample_of_ne_zero _ hf]
    rfl

/-- Settles O33: a sample of frequency 0 that starts. -/
theorem restEffect : Obligations.RestEffect := by
  intro dur s
  rw [exec_rest, Block.startSample_of_zero _ rfl]

/-- Settles O34: a sample of another frequency that starts. -/
theorem noteEffect : Obligations.NoteEffect := by
  intro freq dur s hf
  rw [exec_note, Block.startSample_of_ne_zero _ hf]
  rfl

/-- Settles O50: at a due pair the invariant leaves one value to `elapsed`, which is past the end of the sample. -/
theorem generatorOffAtFetch : Obligations.GeneratorOffAtFetch := by
  intro b hinv hdue
  have hgap := (Block.phase_eq_due_iff hinv.durationBound).mp hdue
  have hbound := hinv.elapsedBound
  refine ⟨Bool.eq_false_iff.mpr fun hon => ?_, by omega⟩
  have hsounding := hinv.enabledSounding hon
  omega

/-! ### Ticks in a row -/

section Ticks
variable {s : State} {rest : List Event}

/-- A `TICK` call runs unless a harness reads the queue, and makes the scheduler its reader. -/
theorem step_tick (hi : s.inbox = .call [0x03#8] :: rest) (hr : s.reader ≠ .harness) :
    step s = .next { s with inbox := rest, reader := .scheduler, block := s.block.tick } :=
  step_not_turnedAway hi rfl (if_neg hr)

/-- Ticks in a row are that many ticks of the block. -/
theorem runSteps_ticks (n : Nat) (hi : s.inbox = List.replicate n (.call [0x03#8]) ++ rest) (hr : s.reader ≠ .harness) :
    runSteps n s = .next { s with
      inbox := rest
      reader := if n = 0 then s.reader else .scheduler
      block := Block.tick^[n] s.block } := by
  induction n generalizing s with
  | zero =>
    have hrest : rest = s.inbox := hi.symm
    simp [hrest]
  | succ n ih =>
    rw [runSteps_succ n (step_tick hi hr), ih rfl (show Reader.scheduler ≠ .harness by decide)]
    simp

end Ticks

/-- The block after `n` ticks from the count `e`, no later than the end of the gap: the count has moved on, and every tick
after the end of the sample has switched the generator off (R78). -/
def Block.ticked (b : Block) (e d n : Nat) : Block :=
  { b with
    elapsed := BitVec.ofNat 32 (e + n)
    genEn := if e + n ≤ max e d then b.genEn else false
    halTrace := b.halTrace ++ List.replicate (e + n - max e d) .disablePeriodicInterrupt }

section Timeline
variable {b : Block} {e d : Nat}

theorem Block.ticked_zero (he : b.elapsed = BitVec.ofNat 32 e) : b.ticked e d 0 = b := by
  simp [Block.ticked, ← he]

theorem Block.ticked_activeDuration_toNat (hb : b.activeDuration = BitVec.ofNat 32 d) (hd : d ≤ 65535) (n : Nat) :
    (b.ticked e d n).activeDuration.toNat = d := by
  simp only [Block.ticked, hb, BitVec.toNat_ofNat]
  omega

theorem Block.ticked_elapsed_toNat {n : Nat} (hn : e + n < 2 ^ 32) : (b.ticked e d n).elapsed.toNat = e + n :=
  (BitVec.toNat_ofNat ..).trans (Nat.mod_eq_of_lt hn)

/-- One tick more of the timeline: it only counts while the sample sounds, and switches the generator off in the gap. -/
theorem Block.ticked_succ (hb : b.activeDuration = BitVec.ofNat 32 d) (hd : d ≤ 65535) {n : Nat} (hn : e + n < d + 6) :
    (b.ticked e d n).tick = b.ticked e d (n + 1) := by
  have hdur := Block.ticked_activeDuration_toNat (e := e) hb hd n
  have helapsed : (b.ticked e d n).elapsed.toNat = e + n := Block.ticked_elapsed_toNat (by omega)
  by_cases hsounding : e + n < d
  · have hmax : max e d = d := by omega
    have hnone : e + n - d = 0 := by omega
    have hnone' : e + (n + 1) - d = 0 := by omega
    have hle : e + (n + 1) ≤ d := by omega
    rw [Block.tick_of_sounding (Block.phase_eq_sounding (by omega)), Block.countTick_eq, helapsed]
    simp only [Block.ticked, hmax, hnone, hnone', Nat.add_assoc, if_pos hsounding.le, if_pos hle]
  · have hgap : ¬ e + (n + 1) ≤ max e d := by omega
    have hcalls : e + (n + 1) - max e d = e + n - max e d + 1 := by omega
    rw [Block.tick_of_gap (Block.phase_eq_gap (by omega) (by omega) (by omega)), Block.countTick_eq,
      Block.generatorOff_elapsed, helapsed, Block.generatorOff_eq]
    simp only [Block.ticked, if_neg hgap, hcalls, List.replicate_succ', List.append_assoc, Nat.add_assoc]

/-- The timeline up to the end of the gap. -/
theorem Block.iterate_tick (he : b.elapsed = BitVec.ofNat 32 e) (hb : b.activeDuration = BitVec.ofNat 32 d)
    (hd : d ≤ 65535) {n : Nat} (hn : e + n ≤ d + 6) : Block.tick^[n] b = b.ticked e d n := by
  induction n with
  | zero => exact (Block.ticked_zero he).symm
  | succ n ih => rw [Function.iterate_succ_apply', ih (by omega), Block.ticked_succ hb hd (by omega)]

/-- After the last tick of the gap a fetch is due. -/
theorem Block.ticked_due (hb : b.activeDuration = BitVec.ofNat 32 d) (hd : d ≤ 65535) {n : Nat} (hn : e + n = d + 6) :
    (b.ticked e d n).phase = .due := by
  have hdur := Block.ticked_activeDuration_toNat (e := e) hb hd n
  have helapsed : (b.ticked e d n).elapsed.toNat = e + n := Block.ticked_elapsed_toNat (by omega)
  exact Block.phase_eq_due (by omega) (by omega)

end Timeline

/-- Settles O30: the timeline from count 0. -/
theorem sampleTimeline : Obligations.SampleTimeline := by
  intro s n d rest hi hpos hn hd hr he hb
  rw [runSteps_ticks n hi hr, Block.iterate_tick (e := 0) he hb hd (by omega), if_neg (Nat.ne_of_gt hpos)]
  simp only [Block.ticked, Nat.zero_add, Nat.zero_max]

/-! ### The idle cycle -/

/-- The block after `n` HAL calls that switch the generator off, and nothing else. -/
def Block.switchedOff (b : Block) (n : Nat) : Block :=
  { b with
    genEn := false
    halTrace := b.halTrace ++ List.replicate n .disablePeriodicInterrupt }

theorem Block.switchedOff_switchedOff (b : Block) (m n : Nat) :
    (b.switchedOff m).switchedOff n = b.switchedOff (m + n) := by
  simp only [Block.switchedOff, List.append_assoc, List.replicate_add]

section Idle
variable {b : Block} (he : b.elapsed = 0#32) (hd : b.activeDuration = 0#32) (hempty : b.writePos = b.readPos)
include he hd hempty

/-- Seven ticks on an empty queue lead from the idle pair back to it: six in the gap, and one that finds the queue empty. -/
theorem Block.iterate_tick_idle : Block.tick^[7] b = b.switchedOff 7 := by
  have hgap : Block.tick^[6] b = b.ticked 0 0 6 := Block.iterate_tick he hd (by decide) (by decide)
  have hdue : (b.ticked 0 0 6).phase = .due := Block.ticked_due hd (by decide) (by decide)
  rw [Function.iterate_succ_apply', hgap, Block.tick_of_due_empty hdue hempty, Block.goIdle_eq]
  simp [Block.ticked, Block.switchedOff, he, hd]

/-- So every seven ticks, and each makes one HAL call (R79). -/
theorem Block.iterate_tick_idle_cycles (m : Nat) :
    Block.tick^[7 * (m + 1)] b = b.switchedOff (7 * (m + 1)) := by
  induction m with
  | zero => exact Block.iterate_tick_idle he hd hempty
  | succ m ih =>
    rw [Nat.mul_succ, Nat.add_comm, Function.iterate_add_apply, ih,
      Block.iterate_tick_idle (b := b.switchedOff _) he hd hempty, Block.switchedOff_switchedOff, Nat.add_comm]

end Idle

/-- Settles O31: the cycle of seven ticks, any number of times. -/
theorem idleCycle : Obligations.IdleCycle := by
  intro s m rest hi hpos hr he hd hempty
  obtain ⟨m, rfl⟩ := Nat.exists_eq_add_one_of_ne_zero (Nat.ne_of_gt hpos)
  rw [runSteps_ticks _ hi hr, Block.iterate_tick_idle_cycles he hd hempty m, if_neg (by omega), Block.switchedOff]

/-! ### The start latency -/

/-- Settles O32: up to the count 6 the timeline of the idle pair moves no cursor, and the tick after it fetches. -/
theorem startLatency : Obligations.StartLatency := by
  intro s e n rest hi hr he6 he hd hne
  refine ⟨fun hlt => ⟨_, runSteps_ticks n hi hr, rfl, ?_⟩, fun heq => ⟨_, runSteps_ticks n hi hr, rfl, ?_⟩⟩
  · have hgap : Block.tick^[n] s.block = s.block.ticked e 0 n := Block.iterate_tick he hd (by decide) (by omega)
    simp only [hgap]
    exact ⟨rfl, rfl, hd⟩
  · have hgap : Block.tick^[6 - e] s.block = s.block.ticked e 0 (6 - e) :=
      Block.iterate_tick he hd (by decide) (by omega)
    have hdue : (s.block.ticked e 0 (6 - e)).phase = .due := Block.ticked_due hd (by decide) (by omega)
    have hsucc : n = 6 - e + 1 := by omega
    obtain ⟨_, _, hread, _⟩ := Block.configure_frame { s.block.ticked e 0 (6 - e) with
      readPos := s.block.readPos + 1#5 } (s.block.mem.read s.block.readPos).freq
    simp only [hsucc, Function.iterate_succ_apply', hgap, Block.tick_of_due_nonempty hdue hne]
    refine ⟨hread, rfl, ?_⟩
    rw [Block.startSample_activeDuration, BitVec.ofNat_toNat]
    rfl

end Sys2Proof.Machine

/-! PROOFS. 42_square_wave_generator.md: the period that `CFG` programs (R81, R83, R84), `GENOFF` (R82), the firing of the
line (R85, R86), and the timed refinement (R88). -/

namespace Sys2Proof.Machine

/-! ### The period -/

/-- The two divisions of R83 are one (R84). -/
theorem togglePeriod_toNat_eq_div (f : Half) : (togglePeriod f).toNat = 1000000 / (2 * min f.toNat 10000) := by
  rw [togglePeriod_toNat, Nat.div_div_eq_div_mul, Nat.mul_comm]

/-- The period `p` is programmed for the frequencies `f` with `2 * p * f ≤ 1000000 < 2 * (p + 1) * f`, `f` clamped. -/
theorem togglePeriod_eq {f : Half} {p : Nat} (hp : p < 2 ^ 32) (hlo : p * (2 * min f.toNat 10000) ≤ 1000000)
    (hhi : 1000000 < (p + 1) * (2 * min f.toNat 10000)) : togglePeriod f = BitVec.ofNat 32 p := by
  rw [← BitVec.toNat_inj, togglePeriod_toNat_eq_div, Nat.div_eq_of_lt_le hlo hhi, BitVec.toNat_ofNat,
    Nat.mod_eq_of_lt hp]

/-- What `CFG` leaves in the generator, for a frequency that is not 0. -/
theorem generator_of_exec_cfg {f : Half} {s t : State} (hf : f ≠ 0#16) (h : exec (.cfg f) s = .next t) :
    t.block.genPeriod = togglePeriod f ∧ t.block.genCnt = 0#32 ∧ t.block.genEn = true := by
  rw [block_of_exec_cfg h, Block.configure_of_ne_zero _ hf]
  exact ⟨rfl, rfl, rfl⟩

/-- The period that a `CFG` leaves, from the bounds on its frequency. -/
theorem genPeriod_of_exec_cfg {f : Half} {s t : State} {p : Nat} (h : exec (.cfg f) s = .next t) (hf : 0 < f.toNat)
    (hp : p < 2 ^ 32) (hlo : p * (2 * min f.toNat 10000) ≤ 1000000) (hhi : 1000000 < (p + 1) * (2 * min f.toNat 10000)) :
    t.block.genPeriod = BitVec.ofNat 32 p := by
  have hne : f ≠ 0#16 := by
    rintro rfl
    exact absurd hf (by decide)
  obtain ⟨hperiod, _⟩ := generator_of_exec_cfg hne h
  rw [hperiod, togglePeriod_eq hp hlo hhi]

/-- Settles O36: the whole effect of `CFG`, and the corner values by their bounds. -/
theorem cfgProgramsPeriod : Obligations.CfgProgramsPeriod := by
  refine ⟨fun f s hf => ?_, fun f s t h => ⟨?_, fun hceiling => ?_, fun hlo hhi => ?_, fun hlo hhi => ?_, ?_⟩⟩
  · rw [exec_cfg, Block.configure_of_ne_zero _ hf]
    rfl
  · rintro rfl
    exact genPeriod_of_exec_cfg h (by decide) (by decide) (by decide) (by decide)
  · exact genPeriod_of_exec_cfg h (by omega) (by decide) (by omega) (by omega)
  · exact genPeriod_of_exec_cfg h (by omega) (by decide) (by omega) (by omega)
  · exact genPeriod_of_exec_cfg h (by omega) (by decide) (by omega) (by omega)
  · rintro rfl
    obtain ⟨_, hcnt, hen⟩ := generator_of_exec_cfg (by decide) h
    exact ⟨genPeriod_of_exec_cfg h (by decide) (by decide) (by decide) (by decide), hcnt, hen⟩

/-- Settles O37: the range of the period, and its one division. -/
theorem periodRange : Obligations.PeriodRange := by
  intro f s t hf h
  obtain ⟨hperiod, _⟩ := generator_of_exec_cfg hf h
  obtain ⟨hlo, hhi⟩ := togglePeriod_range f hf
  rw [hperiod]
  exact ⟨hlo, hhi, togglePeriod_toNat_eq_div f⟩

/-! ### Disabling, and firing -/

theorem exec_fire_of_enabled {s : State} (h : s.block.genEn = true) :
    exec .fire s = .next { s with block := s.block.toggle } :=
  if_pos h

theorem exec_fire_of_disabled {s : State} (h : s.block.genEn = false) : exec .fire s = .refused .fireWhileDisabled :=
  if_neg (Bool.eq_false_iff.mp h)

theorem Block.toggle_eq (b : Block) :
    b.toggle = { b with out := !b.out, halTrace := b.halTrace ++ [.toggleOutput] } := rfl

/-- Settles O39: one HAL call, which leaves the firing no step. -/
theorem genoffDisables : Obligations.GenoffDisables := by
  intro s
  refine ⟨_, exec_genoff s, by rw [Block.generatorOff_eq], exec_genoff _, ?_, exec_fire_of_disabled rfl⟩
  rw [exec_genoff, exec_cfg, Block.configure_zero]

/-- Settles O40: a firing that answers toggles the line. -/
theorem fireTogglesLine : Obligations.FireTogglesLine := by
  intro s
  refine ⟨fun hon => ?_, fun t u ht hu => ?_, exec_fire_of_disabled⟩
  · rw [exec_fire_of_enabled hon, Block.toggle_eq]
  · obtain ⟨_, rfl⟩ := exec_fire_cases ht
    obtain ⟨_, rfl⟩ := exec_fire_cases hu
    exact Bool.not_not s.block.out

/-! ### Firing and the other operations -/

/-- Toggling the line moves nothing that `ENQ` reads. -/
theorem Block.enqueue_toggle (b : Block) (length : Word) (buffer : List Byte) :
    (b.toggle.enqueue length buffer).2 = (b.enqueue length buffer).2.toggle := by
  have hsame : b.toggle.enqResult length = b.enqResult length := rfl
  unfold Block.enqueue
  rw [hsame]
  cases b.enqResult length <;> rfl

theorem Block.enqueue_genEn (b : Block) (length : Word) (buffer : List Byte) :
    (b.enqueue length buffer).2.genEn = b.genEn := by
  unfold Block.enqueue
  cases b.enqResult length <;> rfl

/-- A tick that finds the generator enabled and leaves it so, in a reachable state, is one of branch 1. -/
theorem Block.Inv.tick_sounding {b : Block} (hinv : b.Inv) (hon : b.genEn = true) (hleft : b.tick.genEn = true) :
    b.phase = .sounding := by
  have hsounding := hinv.enabledSounding hon
  obtain ⟨hp, _⟩ | ⟨_, ht⟩ | ⟨hp, _⟩ | ⟨hp, _⟩ := b.tick_cases
  · exact hp
  · rw [ht] at hleft
    cases hleft
  · have := (Block.phase_eq_due_iff hinv.durationBound).mp hp
    omega
  · have := (Block.phase_eq_due_iff hinv.durationBound).mp hp
    omega

/-- Settles O41: the operations write other registers than the line and leave the generator enabled. -/
theorem fireCommutes : Obligations.FireCommutes := by
  intro s t u i hi hfire hx
  obtain ⟨hon, rfl⟩ := exec_fire_cases hfire
  obtain rfl | ⟨length, buffer, rfl⟩ | ⟨rfl, hinv, hleft⟩ := hi
  · cases hx
    exact ⟨_, _, exec_freecap s, exec_fire_of_enabled hon, rfl⟩
  · obtain ⟨hlen, _⟩ := execEnq_cases hx
    rw [exec_enq, execEnq_eq _ hlen] at hx
    cases hx
    refine ⟨_, _, execEnq_eq s hlen, exec_fire_of_enabled ?_, (s.block.enqueue_toggle length buffer).symm⟩
    exact (s.block.enqueue_genEn length buffer).trans hon
  · have hphase := hinv.tick_sounding hon (hleft _ (exec_tick s))
    have htoggled : s.block.toggle.phase = .sounding := hphase
    rw [exec_tick] at hx
    cases hx
    refine ⟨_, _, exec_tick s, exec_fire_of_enabled (hleft _ (exec_tick s)), ?_⟩
    simp only [Block.tick_of_sounding hphase, Block.tick_of_sounding htoggled]
    rfl

/-! ### The units of the timing base -/

/-- A unit that completes a period starts the next one. -/
theorem div_mod_succ_of_complete {n p : Nat} (hpos : 0 < p) (h : n % p + 1 = p) :
    (n + 1) / p = n / p + 1 ∧ (n + 1) % p = 0 := by
  have := Nat.mod_add_div n p
  exact (Nat.div_mod_unique hpos).mpr ⟨by rw [Nat.mul_succ]; omega, hpos⟩

/-- A unit that does not complete a period stays in it. -/
theorem div_mod_succ_of_incomplete {n p : Nat} (hpos : 0 < p) (h : n % p + 1 ≠ p) :
    (n + 1) / p = n / p ∧ (n + 1) % p = n % p + 1 := by
  have := Nat.mod_add_div n p
  have := Nat.mod_lt n hpos
  exact (Nat.div_mod_unique hpos).mpr ⟨by omega, by omega⟩

/-- One toggle more flips the level that `q` of them leave. -/
theorem toggled_succ (level : Bool) (q : Nat) :
    (if (q + 1) % 2 = 0 then level else !level) = !(if q % 2 = 0 then level else !level) := by
  obtain h | h := Nat.mod_two_eq_zero_or_one q
  · have hsucc : (q + 1) % 2 ≠ 0 := by omega
    rw [if_neg hsucc, if_pos h]
  · have hsucc : (q + 1) % 2 = 0 := by omega
    rw [if_pos hsucc, if_neg (by omega), Bool.not_not]

/-- The block of an enabled generator `n` units after its counter was 0: the counter, and the firings so far (R88). -/
def Block.afterUnits (b : Block) (n : Nat) : Block :=
  { b with
    genCnt := BitVec.ofNat 32 (n % b.genPeriod.toNat)
    out := if n / b.genPeriod.toNat % 2 = 0 then b.out else !b.out
    halTrace := b.halTrace ++ List.replicate (n / b.genPeriod.toNat) .toggleOutput }

section Units
variable {b : Block}

theorem Block.afterUnits_zero (hcnt : b.genCnt = 0#32) : b.afterUnits 0 = b := by
  simp [Block.afterUnits, ← hcnt]

/-- The counter of one unit more is at the period exactly when the unit completes it. -/
theorem Block.afterUnits_counter (hpos : 0 < b.genPeriod.toNat) (n : Nat) :
    (b.afterUnits n).genCnt + 1#32 = b.genPeriod ↔ n % b.genPeriod.toNat + 1 = b.genPeriod.toNat := by
  have hlt := Nat.mod_lt n hpos
  have hperiod := b.genPeriod.isLt
  rw [Block.afterUnits, ← BitVec.toNat_inj, BitVec.toNat_add, BitVec.toNat_ofNat, BitVec.toNat_ofNat]
  omega

/-- One unit more: the counter reaches the period and the line toggles, or the counter goes on. -/
theorem Block.usec_afterUnits (hon : b.genEn = true) (hpos : 0 < b.genPeriod.toNat) (n : Nat) :
    (b.afterUnits n).usec = b.afterUnits (n + 1) := by
  have hcounter := Block.afterUnits_counter hpos n
  obtain ⟨hoff, _⟩ | ⟨_, hfire, hu⟩ | ⟨_, hcount, hu⟩ := (b.afterUnits n).usec_cases
  · exact absurd (hon.symm.trans hoff) (by decide)
  · obtain ⟨hdiv, hmod⟩ := div_mod_succ_of_complete hpos (hcounter.mp hfire)
    rw [hu, Block.toggle_eq]
    simp only [Block.afterUnits, hdiv, hmod, toggled_succ, List.replicate_succ', List.append_assoc]
  · obtain ⟨hdiv, hmod⟩ := div_mod_succ_of_incomplete hpos (mt hcounter.mpr hcount)
    rw [hu]
    simp only [Block.afterUnits, hdiv, hmod, BitVec.ofNat_add]

theorem Block.iterate_usec_afterUnits (hon : b.genEn = true) (hpos : 0 < b.genPeriod.toNat) (m n : Nat) :
    Block.usec^[n] (b.afterUnits m) = b.afterUnits (m + n) := by
  induction n with
  | zero => rfl
  | succ n ih => rw [Function.iterate_succ_apply', ih, Block.usec_afterUnits hon hpos, Nat.add_assoc]

end Units

/-- Units in a row are that many units of the block. -/
theorem runSteps_usecs {s : State} {rest : List Event} (n : Nat) (hi : s.inbox = List.replicate n .usec ++ rest) :
    runSteps n s = .next { s with inbox := rest, block := Block.usec^[n] s.block } := by
  induction n generalizing s with
  | zero =>
    have hrest : rest = s.inbox := hi.symm
    simp [hrest]
  | succ n ih => rw [runSteps_succ n (step_usec hi), ih rfl, Function.iterate_succ_apply]

/-- Settles O42: the units of an enabled generator from counter 0, and a unit of a disabled one. -/
theorem togglesPerTimebaseUnits : Obligations.TogglesPerTimebaseUnits := by
  refine ⟨fun s n rest hi hon hcnt hpos => ?_, fun s rest hi hoff => ?_⟩
  · have hunits := Block.iterate_usec_afterUnits hon hpos 0 n
    rw [Block.afterUnits_zero hcnt, Nat.zero_add] at hunits
    rw [runSteps_usecs n hi, hunits, Block.afterUnits]
  · rw [step_usec hi, Block.usec, if_neg (Bool.eq_false_iff.mp hoff)]

/-! ### A note in the timed refinement -/

/-- One tick period of the timed refinement: `n` units of the timing base, and then a tick. -/
def tickPeriod (n : Nat) : List Event := List.replicate n .usec ++ [.call [0x03#8]]

/-- A tick period is that many units of the block, and then a tick. -/
theorem runSteps_tickPeriod {s : State} {rest : List Event} (n : Nat) (hi : s.inbox = tickPeriod n ++ rest)
    (hr : s.reader ≠ .harness) :
    runSteps (n + 1) s =
      .next { s with inbox := rest, reader := .scheduler, block := (Block.usec^[n] s.block).tick } := by
  rw [tickPeriod, List.append_assoc] at hi
  rw [runSteps_add n 1 (runSteps_usecs n hi)]
  exact runSteps_succ 0 (step_tick rfl hr)

/-- The units of a phase lead to its tick. -/
theorem timedSchedule_units (n : Nat) (es : List Event) :
    timedSchedule n (List.replicate n .usec ++ es) = timedSchedule 0 es := by
  induction n with
  | zero => rfl
  | succ n ih => simpa [List.replicate_succ, timedSchedule] using ih

theorem timedSchedule_tick (es : List Event) : timedSchedule 0 (.call [0x03#8] :: es) = timedSchedule 1000 es := rfl

/-- Tick periods in a row are a schedule of the refinement that starts at the phase of one period. -/
theorem timedSchedule_tickPeriods (k : Nat) :
    timedSchedule 1000 (List.replicate k (tickPeriod 1000)).flatten = true := by
  induction k with
  | zero => rfl
  | succ k ih =>
    rw [List.replicate_succ, List.flatten_cons, tickPeriod, List.append_assoc, timedSchedule_units, List.singleton_append,
      timedSchedule_tick]
    exact ih

/-- The block of a note after `k` tick periods of 1000 units, while it sounds. -/
def Block.afterPeriods (b : Block) (k : Nat) : Block :=
  Block.afterUnits { b with elapsed := BitVec.ofNat 32 k } (k * 1000)

section Note
variable {b : Block} {d : Nat} (hon : b.genEn = true) (hpos : 0 < b.genPeriod.toNat)

theorem Block.afterPeriods_zero (he : b.elapsed = 0#32) (hcnt : b.genCnt = 0#32) : b.afterPeriods 0 = b := by
  have hsame : ({ b with elapsed := BitVec.ofNat 32 0 } : Block) = b := by rw [← he]
  rw [Block.afterPeriods, hsame, Nat.zero_mul, Block.afterUnits_zero hcnt]

include hon hpos in
theorem Block.iterate_usec_afterPeriods (k : Nat) :
    Block.usec^[1000] (b.afterPeriods k) =
      Block.afterUnits { b with elapsed := BitVec.ofNat 32 k } ((k + 1) * 1000) := by
  rw [Nat.succ_mul]
  exact Block.iterate_usec_afterUnits (b := { b with elapsed := BitVec.ofNat 32 k }) hon hpos (k * 1000) 1000

include hon hpos in
/-- A tick before the end of the note only counts. -/
theorem Block.tick_afterPeriods (hd : b.activeDuration.toNat = d) (h : d ≤ 65535) {k : Nat} (hk : k < d) :
    (Block.usec^[1000] (b.afterPeriods k)).tick = b.afterPeriods (k + 1) := by
  have helapsed : (BitVec.ofNat 32 k).toNat = k := Nat.mod_eq_of_lt (by omega)
  have hsounding : (BitVec.ofNat 32 k).toNat < b.activeDuration.toNat := by omega
  rw [Block.iterate_usec_afterPeriods hon hpos, Block.tick_of_sounding (Block.phase_eq_sounding hsounding),
    Block.countTick_eq, Block.afterUnits, helapsed]
  rfl

include hon hpos in
/-- The tick at the end of the note switches the generator off. -/
theorem Block.tick_afterPeriods_end (hd : b.activeDuration.toNat = d) (h : d ≤ 65535) :
    (Block.usec^[1000] (b.afterPeriods d)).tick =
      (Block.afterUnits { b with elapsed := BitVec.ofNat 32 d } ((d + 1) * 1000)).generatorOff.countTick := by
  have helapsed : (BitVec.ofNat 32 d).toNat = d := Nat.mod_eq_of_lt (by omega)
  have hlo : b.activeDuration.toNat ≤ (BitVec.ofNat 32 d).toNat := by omega
  have hhi : (BitVec.ofNat 32 d).toNat ≤ b.activeDuration.toNat + 5 := by omega
  rw [Block.iterate_usec_afterPeriods hon hpos]
  exact Block.tick_of_gap (Block.phase_eq_gap (hd.trans_le h) hlo hhi)

end Note

/-- Tick periods in a row, while the note sounds. -/
theorem runSteps_tickPeriods {s : State} {d : Nat} (hd : s.block.activeDuration.toNat = d) (h : d ≤ 65535)
    (he : s.block.elapsed = 0#32) (hon : s.block.genEn = true) (hcnt : s.block.genCnt = 0#32)
    (hpos : 0 < s.block.genPeriod.toNat) (hr : s.reader ≠ .harness) {k : Nat} (hk : k ≤ d) {rest : List Event}
    (hi : s.inbox = (List.replicate k (tickPeriod 1000)).flatten ++ rest) :
    ∃ t, runSteps (k * 1001) s = .next t ∧ t.inbox = rest ∧ t.reader ≠ .harness ∧ t.block = s.block.afterPeriods k := by
  induction k generalizing rest with
  | zero => exact ⟨s, by rw [Nat.zero_mul, runSteps_zero], hi, hr, (Block.afterPeriods_zero he hcnt).symm⟩
  | succ k ih =>
    rw [List.replicate_succ', List.flatten_concat, List.append_assoc] at hi
    obtain ⟨t, hrun, hinbox, hreader, hblock⟩ := ih (Nat.le_of_succ_le hk) hi
    rw [Nat.succ_mul, runSteps_add _ _ hrun, runSteps_tickPeriod 1000 hinbox hreader, hblock,
      Block.tick_afterPeriods hon hpos hd h hk]
    exact ⟨_, rfl, rfl, show Reader.scheduler ≠ .harness by decide, rfl⟩

/-- Settles O43: `d` tick periods in which the note sounds, and one that ends it, as a schedule of the refinement. -/
theorem noteTogglesInTimedRefinement : Obligations.NoteTogglesInTimedRefinement := by
  intro s d rest hi h hr he hd hon hcnt hpos
  have hperiods : s.inbox = (List.replicate (d + 1) (tickPeriod 1000)).flatten ++ rest := hi
  have hdur : s.block.activeDuration.toNat = d := by
    rw [hd, BitVec.toNat_ofNat]
    omega
  refine ⟨?_, fun hrest => ?_⟩
  · rw [List.replicate_succ', List.flatten_concat, List.append_assoc] at hperiods
    obtain ⟨t, hrun, hinbox, hreader, hblock⟩ := runSteps_tickPeriods hdur h he hon hcnt hpos hr le_rfl hperiods
    rw [Nat.succ_mul, runSteps_add _ _ hrun, runSteps_tickPeriod 1000 hinbox hreader, hblock,
      Block.tick_afterPeriods_end hon hpos hdur h]
    exact ⟨_, rfl, rfl, rfl, rfl, rfl⟩
  · rw [hperiods, hrest, List.append_nil]
    exact timedSchedule_tickPeriods (d + 1)

end Sys2Proof.Machine
